-- ==== Sys2Proof/Word.lean ====
section
/-! DEFINITION. The value types of the engine: bytes, 32-bit registers, the 64-bit index, 32-byte digests (00_scope.md R11, R12, R13). -/

namespace Sys2Proof

/-- A byte, a `u8` (R13). -/
abbrev Byte := BitVec 8

/-- A `u32`: every register of the window is 32 bits wide (10_state.md R20). -/
abbrev Word := BitVec 32

/-- A 64-bit value: INDEX, BLK, NBLK and the varint encoder's input (R11). -/
abbrev DWord := BitVec 64

/-- A Digest, a Nonce or a block key: exactly 32 bytes, byte 0 first (R11, R13). -/
abbrev Digest := Vector Byte 32

/-- 32 bytes of 0x00, the zeroized value of a 32-byte storage element (R16 "zeroize"). -/
def zeroDigest : Digest := Vector.replicate 32 0

end Sys2Proof
end

