-- ==== Sys2Proof/Config.lean ====
section
/-! DEFINITION. The implementation parameters of 00_scope.md R10 and the free values of the model. -/

namespace Sys2Proof

/-- The buffer sizes of one engine (R10): PWD_CAP and IN_CAP. State carries them as constant data, so that a statement about every
state is about every engine R10 admits. -/
structure Params where
  /-- PWD_CAP, the password buffer's bytes. -/
  pwdCap : Nat
  /-- IN_CAP, the input buffer's bytes. -/
  inCap : Nat
deriving DecidableEq, Repr

/-- R10's default sizes. -/
def Params.default : Params := { pwdCap := 256, inCap := 4096 }

/-- The three pure collaborators of 60_exceptions.md R168. The cipher's functions take them as an argument, as R10 says; each is
total and depends on its argument bytes alone. -/
structure Ports where
  /-- `digest(bytes) -> Digest`; the spec writes `Digest(x)`. -/
  sha256 : List Byte → Digest
  /-- `passwordHash(bytes) -> Digest` (OPEN, D10). -/
  passwordHash : List Byte → Digest
  /-- `digestAdd(Digest, Digest) -> Digest` (OPEN, D11, C4: no instantiation is assumed). -/
  digestAdd : Digest → Digest → Digest
deriving Inhabited

/-- The collaborators wired to this engine: no body, so no proof can use what they compute (log entry 7). -/
opaque Config.ports : Ports

/-- The RNG draw number k, once the draws State carries are used up: a free value (R126, U5; log entry 4). -/
opaque Config.rngDraw : Nat → Digest

/-- The free value number k of a result read while BUSY, once those State carries are used up (R185, U6; log entry 5). -/
opaque Config.busyDraw : Nat → Word

/-- BASE, where the platform places the window (OPEN, D3; log entry 6). -/
opaque Config.base : Nat

/-- IRQ_LINE, where the platform wires the interrupt output (OPEN, D23; log entry 6). -/
opaque Config.irqLine : Nat

end Sys2Proof
end

