-- ==== Sys2Proof/Syntax.lean ====
section
/-! DEFINITION. What is written down for this machine: the seven commands (30_encoding.md R71), the fields of a command word (R70), the
host's window accesses (20_memory.md R52) and host scripts (R79, R80). -/

namespace Sys2Proof

/-- The commands, one constructor per row of the opcode table. No command has an operand field (R70). -/
inductive Instr where
  | encrypt
  | decrypt
  | verify
  | varint
  | deriveKey
  | frame
  | unframe
deriving DecidableEq, Repr

/-- The two fields of format CMD32 (R70). -/
structure CmdFields where
  /-- Bits 3:0, the operation selector. -/
  op : BitVec 4
  /-- Bits 31:4, reserved. -/
  rsv : BitVec 28
deriving DecidableEq, Repr

/-- Why a command word is illegal (R72). -/
inductive DecodeError where
  /-- Some bit of 31:4 is 1. -/
  | reservedBitsSet
  /-- OP is 0x0. -/
  | opZero
  /-- OP is in 0x8 to 0xF. -/
  | opReserved
deriving DecidableEq, Repr

/-- One host access: `MemRead(off, n)` or `MemWrite(off, n, v)`; no other width exists (R52). R79 writes them R8, R32, W8, W32. -/
inductive Access where
  | read8 (off : Nat)
  | read32 (off : Nat)
  | write8 (off : Nat) (v : Byte)
  | write32 (off : Nat) (v : Word)
deriving DecidableEq, Repr

/-- What stands on one line of a host program once the pseudo-instructions that expand to a fixed list are expanded (R79, R80). -/
inductive HostLine where
  /-- One window access. -/
  | access (a : Access)
  /-- WAIT: read STATUS until BUSY = 0 and DONE = 1. -/
  | wait
  /-- RESULT: read OUT_LEN, then that many bytes of OUT. -/
  | result
deriving DecidableEq, Repr

/-- The lines and pseudo-instructions of the host notation (R79, R80); a bare mnemonic is `start`. -/
inductive Pseudo where
  | line (a : Access)
  | wb (off : Nat) (bytes : List Byte)
  | setPwd (bytes : List Byte)
  | setIn (bytes : List Byte)
  | setIdx (v : DWord)
  | start (m : Instr)
  | wait
  | ack
  | result
deriving DecidableEq, Repr

/-- Which agent moves: the host, the engine (10_state.md R22), or the platform with its reset input (70_reset_and_hazards.md R180). -/
inductive Turn where
  | host
  | engine
  | reset
deriving DecidableEq, Repr

end Sys2Proof
end

