-- ==== Sys2Proof/Machine/State.lean ====
section
/-! DEFINITION. Everything the machine holds (10_state.md), the reasons a step can stop, and the state after reset (R40). -/

namespace Sys2Proof.Machine

/-- The window's buffer bytes: (window offset, byte) pairs, offsets strictly rising, no pair with byte 0x00. A byte that is not listed
reads 0x00, the reset contents of PWD, IN and OUT (R40). -/
abbrev Memory := List Host.Cell

/-- The fields of STATUS, offset 0x008 (R25); bits 31:5 are not stored, they read 0. -/
structure Status where
  /-- Bit 0. It is the engine's phase: 0 is IDLE, 1 is BUSY (R22). -/
  busy : Bool
  /-- Bit 1. -/
  done : Bool
  /-- Bit 2. -/
  err : Bool
  /-- Bit 3. -/
  vok : Bool
  /-- Bit 4. -/
  haz : Bool
deriving DecidableEq, Repr

/-- STATUS after reset (R40). -/
def Status.zero : Status := { busy := false, done := false, err := false, vok := false, haz := false }

/-- The engine's phase (R22). -/
inductive Phase where
  | idle
  | busy
deriving DecidableEq, Repr

/-- The internal datapath state (R35); the host cannot reach it. -/
structure Datapath where
  /-- PDIG, the password digest. -/
  pdig : Digest
  /-- NONCE_R, the nonce drawn or read. -/
  nonceR : Digest
  /-- NDIG, Digest(NONCE_R). -/
  ndig : Digest
  /-- IDXBUF, the index buffer of the current block. -/
  idxbuf : Digest
  /-- INH, the indexNonceHash of the current block. -/
  inh : Digest
  /-- KEY, the block key of the current block. -/
  key : Digest
  /-- BLK, the current block index. -/
  blk : DWord
  /-- NBLK, the block count. -/
  nblk : DWord
  /-- FRM, the working frame: its bytes by index, in the form of `Memory`. -/
  frm : Memory
deriving DecidableEq, Repr

/-- All of R35's state zeroized (R36, R40). -/
def Datapath.zero : Datapath :=
  { pdig := zeroDigest, nonceR := zeroDigest, ndig := zeroDigest, idxbuf := zeroDigest, inh := zeroDigest, key := zeroDigest,
    blk := 0, nblk := 0, frm := [] }

/-- The errors a command can raise (60_exceptions.md R150). -/
inductive CmdError where
  | invalidPassword
  | format
  | integrity
  | illegalCommand
  | capacity
deriving DecidableEq, Repr

/-- The registers of the window (R23 to R30). -/
inductive Reg where
  | ctrl
  | cmd
  | status
  | errCode
  | pwdLen
  | inLen
  | outLen
  | indexLo
  | indexHi
deriving DecidableEq, Repr

/-- The byte buffers of the window (R32 to R34). -/
inductive Buffer where
  | pwd
  | inp
  | out
deriving DecidableEq, Repr

/-- A mapped part of the window (20_memory.md R51). -/
inductive Region where
  | reg (r : Reg)
  | buf (b : Buffer)
deriving DecidableEq, Repr

/-- One entry of the event record (R39): RNG_REQ(32) with the 32 bytes drawn. -/
inductive Event where
  | rngReq (bytes : Digest)
deriving DecidableEq, Repr

/-- What one host access returned: a byte, a word, or the end of a write (R52). A bus error returns nothing (R54). -/
inductive Response where
  | byte (v : Byte)
  | word (v : Word)
  | written
deriving DecidableEq, Repr

/-- The machine. The first group is the spec's state; `params` is constant; the last group is the model's own (log entries 1 to 5). -/
structure State where
  /-- PWD_CAP and IN_CAP of this engine (00_scope.md R10); no step changes them. -/
  params : Params
  /-- CTRL.IE (R23). -/
  ctrlIE : Bool
  /-- CMD, the last latched word (R24). -/
  cmd : Word
  /-- STATUS (R25), the phase among it (R22). -/
  status : Status
  /-- ERR_CODE.CODE (R26). -/
  errCode : BitVec 4
  /-- PWD_LEN (R27). -/
  pwdLen : Word
  /-- IN_LEN (R28). -/
  inLen : Word
  /-- OUT_LEN (R29). -/
  outLen : Word
  /-- INDEX_LO (R30). -/
  indexLo : Word
  /-- INDEX_HI (R30). -/
  indexHi : Word
  /-- PWD, IN and OUT (R32 to R34), by window offset. -/
  mem : Memory
  /-- The internal datapath (R35). -/
  dp : Datapath
  /-- The event record, oldest first (R39). -/
  events : List Event
  /-- The host's remaining program (30_encoding.md R79). -/
  script : List HostLine
  /-- Who moves in the coming steps (20_memory.md R62). -/
  schedule : List Turn
  /-- What the host's accesses have returned, oldest first. -/
  responses : List Response
  /-- The coming RNG draws (43_cipher.md R126): free. -/
  rngSupply : List Digest
  /-- How many RNG draws were made. -/
  rngCount : Nat
  /-- The coming values of result reads while BUSY (70_reset_and_hazards.md R185): free. -/
  busySupply : List Word
  /-- How many result reads while BUSY were made. -/
  busyCount : Nat
deriving DecidableEq, Repr

/-- Why a step stops. Each is a bus error of a host access (20_memory.md R54), raised by the access checks of Machine/Window.lean and by
nothing else; the spec has the model record a bus error as a fault of the host step. All are safe: the machine stops where the hardware
would answer the host with an error and leave the engine as it was. -/
inductive Fault where
  /-- The offset is 0x30000 or more, outside the window (R50 leaves it to the platform). Safe. -/
  | outsideWindow (off : Nat)
  /-- A reserved or unmapped offset, or a 4-byte access that leaves its buffer (R53, R54). Safe. -/
  | unmapped (off : Nat)
  /-- A 1-byte access to a register (R52, R54). Safe. -/
  | wrongWidth (off : Nat)
  /-- A 4-byte access with off % 4 != 0 (R53, R54). Safe. -/
  | misaligned (off : Nat)
  /-- A host write to OUT (R54, R59). Safe. -/
  | outWrite (off : Nat)
deriving DecidableEq, Repr

/-- Why a step has no meaning. No meaning of this model refuses: every command of the table has one. -/
inductive Refusal where
  /-- An instruction without a meaning, raised by exec's arms only. Safe. No arm of this model answers it. -/
  | notModelled (mnemonic : String)
deriving DecidableEq, Repr

/-- The reset state (R40) of an engine with the given sizes; the model's own fields empty. -/
def State.resetWith (p : Params) : State :=
  { params := p, ctrlIE := false, cmd := 0, status := .zero, errCode := 0, pwdLen := 0, inLen := 0, outLen := 0, indexLo := 0,
    indexHi := 0, mem := [], dp := .zero, events := [], script := [], schedule := [], responses := [], rngSupply := [],
    rngCount := 0, busySupply := [], busyCount := 0 }

/-- The machine right after reset (R40), with R10's default sizes. -/
def State.reset : State := State.resetWith .default

end Sys2Proof.Machine
end

