-- ==== Sys2Proof/Machine/Flags.lean ====
section
/-! DEFINITION. The STATUS and CTRL bits, ERR_CODE and the interrupt output: every flag the engine has (10_state.md R23, R25, R26, R37, R38). -/

namespace Sys2Proof.Machine

/-- Bit `k` of a register word, from a flag. -/
def flagBit (k : Nat) (b : Bool) : Word := if b then BitVec.twoPow 32 k else 0

/-- The word a read of STATUS returns; bits 31:5 read 0 (R25). -/
def statusWord (st : Status) : Word :=
  flagBit 0 st.busy ||| flagBit 1 st.done ||| flagBit 2 st.err ||| flagBit 3 st.vok ||| flagBit 4 st.haz

/-- A host write of STATUS: bit 1 clears DONE, bit 4 clears HAZ, every other bit is ignored (R25). -/
def statusAfterWrite (v : Word) (st : Status) : Status :=
  { st with done := st.done && !v.getLsbD 1, haz := st.haz && !v.getLsbD 4 }

/-- The word a read of CTRL returns; bits 31:1 read 0 (R23). -/
def ctrlWord (ie : Bool) : Word := flagBit 0 ie

/-- IE as a CTRL write leaves it: bit 0 of the value (R23). -/
def ieAfterWrite (v : Word) : Bool := v.getLsbD 0

/-- The word a read of ERR_CODE returns; bits 31:4 read 0 (R26). -/
def errCodeWord (c : BitVec 4) : Word := c.setWidth 32

/-- The error codes (60_exceptions.md R150). -/
def errorCode : CmdError → BitVec 4
  | .invalidPassword => 1
  | .format => 2
  | .integrity => 3
  | .illegalCommand => 4
  | .capacity => 5

/-- ERR_CODE NONE (R150). -/
def noError : BitVec 4 := 0

/-- The phase is what STATUS.BUSY reports (R22). -/
def State.phase (s : State) : Phase := if s.status.busy then .busy else .idle

/-- IRQ, a level: STATUS.DONE and CTRL.IE, in every state (R38, R162). -/
def State.irq (s : State) : Bool := s.status.done && s.ctrlIE

/-- Where the platform sees the interrupt, and its level (R162). -/
def State.irqOutput (s : State) : Nat × Bool := (Config.irqLine, s.irq)

/-- STATUS as an accepted start leaves it (60_exceptions.md R157). -/
def statusAtStart (st : Status) : Status := { st with busy := true, done := false, err := false, vok := false }

/-- ERR and VOK as a raised error leaves them (R158). -/
def statusAtError (st : Status) : Status := { st with vok := false, err := true }

/-- ERR as a completion without error leaves it (R156). -/
def statusAtSuccess (st : Status) : Status := { st with err := false }

/-- BUSY and DONE as every completion leaves them (R156). -/
def statusAtEnd (st : Status) : Status := { st with busy := false, done := true }

/-- An ignored host write during BUSY sets HAZ (70_reset_and_hazards.md R184, R186). -/
def statusAtHazard (st : Status) : Status := { st with haz := true }

end Sys2Proof.Machine
end

