-- ==== Sys2Proof/Machine/Ops.lean ====
section
/-! DEFINITION. The named operations over the buffers and the digest values, and the shared course of a command: start, error
completion (the engine's way of taking an exception), the common end, and the return from it (60_exceptions.md R156, R157, R158, R164). -/

namespace Sys2Proof.Machine

/-! ## The byte store -/

/-- The canonical form: offsets strictly rising and no listed 0x00, which is what an unlisted byte reads as (R40). -/
def Memory.wf (m : Memory) : Bool :=
  decide (m.Pairwise fun c d => c.1 < d.1) && m.all fun c => c.2 != 0

/-- The byte at offset `a`; an unlisted byte reads 0x00 (R40). -/
def Memory.read (m : Memory) (a : Nat) : Byte := (m.lookup a).getD 0

/-- The `n` bytes from offset `a` on, first byte first (00_scope.md R13). -/
def Memory.readBytes (m : Memory) (a n : Nat) : List Byte := (List.range n).map fun i => m.read (a + i)

/-- The store that holds the bytes `bs` from offset `a` on and 0x00 elsewhere. -/
def Memory.ofBytes (a : Nat) : List Byte → Memory
  | [] => []
  | b :: bs => if b = 0 then Memory.ofBytes (a + 1) bs else (a, b) :: Memory.ofBytes (a + 1) bs

/-- Write the bytes `bs` from offset `a` on. -/
def Memory.store (m : Memory) (a : Nat) (bs : List Byte) : Memory :=
  m.filter (fun c => c.1 < a) ++ Memory.ofBytes a bs ++ m.filter (fun c => a + bs.length ≤ c.1)

/-- Set the `n` bytes from offset `a` on to 0x00 (R16 "zeroize"). -/
def Memory.clear (m : Memory) (a n : Nat) : Memory := m.filter fun c => c.1 < a || a + n ≤ c.1

/-! ## Byte sequences and digests -/

/-- `le32(v)`: least-significant byte first (R13). -/
def le32 (v : Word) : List Byte :=
  [v.extractLsb' 0 8, v.extractLsb' 8 8, v.extractLsb' 16 8, v.extractLsb' 24 8]

/-- The `u32` whose little-endian bytes are `B[0]` to `B[3]` (20_memory.md R55, 42_framing.md R112). -/
def wordOfLe (bs : List Byte) : Word := bs.getD 3 0 ++ bs.getD 2 0 ++ bs.getD 1 0 ++ bs.getD 0 0

/-- `xor(A, B)` of two sequences of equal length (R13). -/
def xorBytes (a b : List Byte) : List Byte := List.zipWith (· ^^^ ·) a b

/-- `zeros(n)` (R13). -/
def zeros (n : Nat) : List Byte := List.replicate n 0

/-- The first 32 bytes of a sequence, zeros where it is shorter. -/
def digestOfBytes (bs : List Byte) : Digest := ⟨((bs ++ zeros 32).take 32).toArray, by simp [zeros]⟩

/-! ## The window's buffers (20_memory.md R51) -/

/-- The window has offsets 0x00000 to 0x2FFFF (R50). -/
def windowSize : Nat := 0x30000

/-- First offset of PWD. -/
def pwdBase : Nat := 0x100

/-- First offset of IN. -/
def inBase : Nat := 0x10000

/-- First offset of OUT. -/
def outBase : Nat := 0x20000

/-- OUT_CAP = IN_CAP + 96 (00_scope.md R10). -/
def outCap (p : Params) : Nat := p.inCap + 96

/-- First offset of a buffer. -/
def bufBase : Buffer → Nat
  | .pwd => pwdBase
  | .inp => inBase
  | .out => outBase

/-- Byte count of a buffer. -/
def bufCap (p : Params) : Buffer → Nat
  | .pwd => p.pwdCap
  | .inp => p.inCap
  | .out => outCap p

/-- `OUT[0..OUT_CAP) <- zeros(OUT_CAP)` (10_state.md R34). -/
def clearOut (s : State) : State := { s with mem := s.mem.clear outBase (outCap s.params) }

/-- `PWD[0..PWD_CAP) <- zeros; PWD_LEN <- 0` (43_cipher.md R127). -/
def clearPassword (s : State) : State := { s with mem := s.mem.clear pwdBase s.params.pwdCap, pwdLen := 0 }

/-- A body's result: `OUT[0..len(B)) <- B`, `OUT_LEN <- len(B)`; VOK = 0, as every command but VERIFY leaves it (log entry 10). -/
def writeResult (bs : List Byte) (s : State) : State :=
  { s with
    mem := s.mem.store outBase bs
    outLen := BitVec.ofNat 32 bs.length
    status := { s.status with vok := false } }

/-! ## The course of a command -/

/-- An accepted CMD write: the word is latched whole and the command starts (R157). -/
def startCommand (v : Word) (s : State) : State :=
  { s with cmd := v, status := statusAtStart s.status, errCode := noError }

/-- `raise Error(code)` (R158). -/
def raiseError (e : CmdError) (s : State) : State :=
  { clearOut s with outLen := 0, status := statusAtError s.status, errCode := errorCode e }

/-- `complete with ERR_CODE = NONE` (R156). -/
def completeOk (s : State) : State := { s with status := statusAtSuccess s.status, errCode := noError }

/-- The common end of every engine step (R156): the password zeroized for ENCRYPT, DECRYPT and DERIVE_KEY, the internal state zeroized
(10_state.md R36), BUSY = 0 and DONE = 1. -/
def endCommand (usesPassword : Bool) (s : State) : State :=
  let t := if usesPassword then clearPassword s else s
  { t with dp := .zero, status := statusAtEnd s.status }

/-- One engine step with the given body (R156). The body starts on a zero-filled OUT. If it raises, nothing it computed is visible
(R158): the error completion starts from the state the body started from. -/
def runBody (usesPassword : Bool) (body : State → Except CmdError State) (s : State) : State :=
  match body (clearOut s) with
  | .ok t => endCommand usesPassword (completeOk t)
  | .error e => endCommand usesPassword (raiseError e (clearOut s))

/-- The engine step of an illegal command word (R154). -/
def execIllegal (s : State) : Host.Outcome State Fault Refusal :=
  .next (runBody false (fun _ => .error .illegalCommand) s)

/-- The host's return from a completion: a STATUS write clears DONE (R164, R25). -/
def writeStatus (v : Word) (s : State) : State := { s with status := statusAfterWrite v s.status }

/-- An ignored host write during BUSY (R184, R186). -/
def hazard (s : State) : State := { s with status := statusAtHazard s.status }

/-- The platform's reset, from any state (70_reset_and_hazards.md R180): every register, buffer and internal value as R40 says; the event
record is kept, and so are the engine's sizes and the model's own fields. -/
def platformReset (s : State) : State :=
  { State.resetWith s.params with
    events := s.events
    script := s.script
    schedule := s.schedule
    responses := s.responses
    rngSupply := s.rngSupply
    rngCount := s.rngCount
    busySupply := s.busySupply
    busyCount := s.busyCount }

/-! ## The free values -/

/-- The value of the next RNG draw: any 32 bytes (43_cipher.md R126). -/
def nextNonce (s : State) : Digest := s.rngSupply.headD (Config.rngDraw s.rngCount)

/-- `draw RNG()`: the request and its bytes join the event record (10_state.md R39). -/
def drawNonce (s : State) : State :=
  { s with
    events := s.events ++ [.rngReq (nextNonce s)]
    rngSupply := s.rngSupply.tail
    rngCount := s.rngCount + 1 }

/-- The value of the next result read while BUSY: any value (70_reset_and_hazards.md R185). -/
def nextBusyValue (s : State) : Word := s.busySupply.headD (Config.busyDraw s.busyCount)

/-- That value is used up: the next such read has its own. -/
def drawBusyValue (s : State) : State := { s with busySupply := s.busySupply.tail, busyCount := s.busyCount + 1 }

end Sys2Proof.Machine
end

