-- ==== Sys2Proof/Machine/Operands.lean ====
section
/-! DEFINITION. The operands a command reads and the checks every command shares (30_encoding.md R73, 60_exceptions.md R151, R155, R159). -/

namespace Sys2Proof.Machine

/-- `PWD[0..PWD_LEN)`. -/
def passwordBytes (s : State) : List Byte := s.mem.readBytes pwdBase s.pwdLen.toNat

/-- `IN[0..IN_LEN)`. -/
def inputBytes (s : State) : List Byte := s.mem.readBytes inBase s.inLen.toNat

/-- `OUT[0..OUT_LEN)`, what a completed command returned (10_state.md R34). -/
def resultBytes (s : State) : List Byte := s.mem.readBytes outBase s.outLen.toNat

/-- `INDEX = INDEX_HI ‖ INDEX_LO` (10_state.md R30). -/
def indexOperand (s : State) : DWord := s.indexHi ++ s.indexLo

/-- IN_LEN > IN_CAP: CAPACITY for every command that reads IN (R155). Lengths are unsigned (R73). -/
def inputTooLong (s : State) : Bool := s.params.inCap < s.inLen.toNat

/-- PWD_LEN > PWD_CAP: CAPACITY for ENCRYPT, DECRYPT and DERIVE_KEY (R155). -/
def passwordTooLong (s : State) : Bool := s.params.pwdCap < s.pwdLen.toNat

/-- The checks of ENCRYPT, DECRYPT and DERIVE_KEY, in R159's order: the empty password, then the capacities. -/
def passwordCheck (s : State) : Option CmdError :=
  if s.pwdLen = 0 then some .invalidPassword
  else if passwordTooLong s || inputTooLong s then some .capacity
  else none

/-- The check of VERIFY, FRAME and UNFRAME (R159). -/
def inputCheck (s : State) : Option CmdError := if inputTooLong s then some .capacity else none

end Sys2Proof.Machine
end

