-- ==== Sys2Proof/Machine/Varint.lean ====
section
/-! DEFINITION. The varint block-index encoder and the VARINT command (40_varint.md). -/

namespace Sys2Proof.Machine

/-- `ZigZag(v) = (v << 1) ^ (v >> 63)`, `>>` arithmetic on an `s64` (R90). -/
def zigZag (v : DWord) : DWord := (v <<< 1) ^^^ v.sshiftRight 63

/-- `Leb` with at most `n` continuation bytes before the last byte (R91). -/
def lebGo : Nat → DWord → List Byte
  | 0, u => [u.setWidth 8]
  | n + 1, u => if 0x80 ≤ u then (u.setWidth 8 ||| 0x80) :: lebGo n (u >>> 7) else [u.setWidth 8]

/-- `Leb(u)` (R91). Nine continuation bytes are enough: 64 - 9*7 = 1 bit is left after them (R93; log entry 11). -/
def leb (u : DWord) : List Byte := lebGo 9 u

/-- `EncodeVarint(v) = Leb(ZigZag(v))` (R92). -/
def encodeVarint (v : DWord) : List Byte := leb (zigZag v)

/-- The body of VARINT (R94). -/
def varintBody (s : State) : Except CmdError State := .ok (writeResult (encodeVarint (indexOperand s)) s)

/-- VARINT (R94): encode INDEX as a varint into OUT. -/
def execVarint (s : State) : Host.Outcome State Fault Refusal := .next (runBody false varintBody s)

end Sys2Proof.Machine
end

