-- ==== Sys2Proof/Machine/BlockKey.lean ====
section
/-! DEFINITION. Block-key derivation and the DERIVE_KEY command (41_blockkey.md). -/

namespace Sys2Proof.Machine

/-- `IndexBuffer(i)`: the varint at offsets 0 to k-1, zeros after it (R100, R77). -/
def indexBuffer (i : DWord) : Digest := digestOfBytes (encodeVarint i)

/-- `IndexNonceHash(i, nd) = Digest(IndexBuffer(i) ‖ nd)` (R101). -/
def indexNonceHash (P : Ports) (i : DWord) (nd : Digest) : Digest := P.sha256 ((indexBuffer i).toList ++ nd.toList)

/-- `DeriveBlockKey(pd, i, nd) = DigestAdd(pd, IndexNonceHash(i, nd))` (R102). -/
def deriveBlockKey (P : Ports) (pd : Digest) (i : DWord) (nd : Digest) : Digest := P.digestAdd pd (indexNonceHash P i nd)

/-- Load IDXBUF, INH and KEY for block index `i` from PDIG and NDIG (R104, 43_cipher.md R121). -/
def loadBlockKey (P : Ports) (i : DWord) (dp : Datapath) : Datapath :=
  { dp with idxbuf := indexBuffer i, inh := indexNonceHash P i dp.ndig, key := deriveBlockKey P dp.pdig i dp.ndig }

/-- Load PDIG, NONCE_R and NDIG from a password and a nonce (R104, 43_cipher.md R122, R123). -/
def loadDigests (P : Ports) (pw : List Byte) (n : Digest) (dp : Datapath) : Datapath :=
  { dp with pdig := P.passwordHash pw, nonceR := n, ndig := P.sha256 n.toList }

/-- The body of DERIVE_KEY (R104). -/
def deriveKeyBody (P : Ports) (s : State) : Except CmdError State :=
  match passwordCheck s with
  | some e => .error e
  | none =>
    if s.inLen ≠ 32 then .error .format
    else
      let dp := loadBlockKey P (indexOperand s) (loadDigests P (passwordBytes s) (digestOfBytes (inputBytes s)) s.dp)
      .ok (writeResult dp.key.toList { s with dp := dp })

/-- DERIVE_KEY (R104): one block key from the password, a raw nonce and INDEX. -/
def execDeriveKey (s : State) : Host.Outcome State Fault Refusal := .next (runBody true (deriveKeyBody Config.ports) s)

end Sys2Proof.Machine
end

