-- ==== Sys2Proof/Machine/Framing.lean ====
section
/-! DEFINITION. Padding and length framing, and the FRAME and UNFRAME commands (42_framing.md). -/

namespace Sys2Proof.Machine

/-- `n(m) = ceil((4 + m) / 32)` (R111). -/
def blockCount (m : Nat) : Nat := (4 + m + 31) / 32

/-- `Frame(D) = le32(m) ‖ D ‖ zeros(32*n - 4 - m)` (R110, R75). -/
def frameBytes (d : List Byte) : List Byte :=
  le32 (BitVec.ofNat 32 d.length) ++ d ++ zeros (32 * blockCount d.length - 4 - d.length)

/-- `Unframe(F)` (R112, R113); padding and spare blocks are not checked (R114). -/
def unframeBytes (f : List Byte) : Except CmdError (List Byte) :=
  if f.length < 4 then .error .format
  else if f.length - 4 < (wordOfLe f).toNat then .error .format
  else .ok ((f.drop 4).take (wordOfLe f).toNat)

/-- The body of FRAME (R115); the frame passes through FRM (10_state.md R35; log entry 12). -/
def frameBody (s : State) : Except CmdError State :=
  match inputCheck s with
  | some e => .error e
  | none =>
    let f := frameBytes (inputBytes s)
    .ok (writeResult f { s with dp := { s.dp with frm := Memory.ofBytes 0 f } })

/-- FRAME (R115): frame the input into OUT. -/
def execFrame (s : State) : Host.Outcome State Fault Refusal := .next (runBody false frameBody s)

/-- The body of UNFRAME (R116). -/
def unframeBody (s : State) : Except CmdError State :=
  match inputCheck s with
  | some e => .error e
  | none =>
    match unframeBytes (inputBytes s) with
    | .error e => .error e
    | .ok r => .ok (writeResult r s)

/-- UNFRAME (R116): recover the data from a frame in IN. -/
def execUnframe (s : State) : Host.Outcome State Fault Refusal := .next (runBody false unframeBody s)

end Sys2Proof.Machine
end

