-- ==== Sys2Proof/Machine/Verify.lean ====
section
/-! DEFINITION. The checksum verifier and the VERIFY command (44_verify.md), and the layout of a wire message (30_encoding.md R76). -/

namespace Sys2Proof.Machine

/-- The checksum field W[0..32) (R76). -/
def messageChecksum (w : List Byte) : List Byte := w.take 32

/-- The nonce field W[32..64) (R76). -/
def messageNonce (w : List Byte) : Digest := digestOfBytes (w.drop 32)

/-- The ciphertext W[64..len(W)) (R76). -/
def messageCiphertext (w : List Byte) : List Byte := w.drop 64

/-- len(W) = 64 + 32k for some k >= 0 (R141, 43_cipher.md R123). -/
def messageLengthOk (w : List Byte) : Bool := 64 ≤ w.length && (w.length - 64) % 32 == 0

/-- `Checksum(N, C) = Digest(N ‖ C)` (R140). -/
def checksum (P : Ports) (n : Digest) (c : List Byte) : Digest := P.sha256 (n.toList ++ c)

/-- The checksum field equals the recomputed checksum, all 32 bytes (R141, D31). -/
def checksumMatches (P : Ports) (w : List Byte) : Bool :=
  (checksum P (messageNonce w) (messageCiphertext w)).toList == messageChecksum w

/-- `VerifyFn(W)` (R141): a malformed length is false (D17). -/
def verifyMessage (P : Ports) (w : List Byte) : Bool := messageLengthOk w && checksumMatches P w

/-- The body of VERIFY (R142). -/
def verifyBody (P : Ports) (s : State) : Except CmdError State :=
  match inputCheck s with
  | some e => .error e
  | none => .ok { s with outLen := 0, status := { s.status with vok := verifyMessage P (inputBytes s) } }

/-- VERIFY (R142): check the checksum of a wire message in IN. -/
def execVerify (s : State) : Host.Outcome State Fault Refusal := .next (runBody false (verifyBody Config.ports) s)

end Sys2Proof.Machine
end

