-- ==== Sys2Proof/Machine/Cipher.lean ====
section
/-! DEFINITION. The XOR datapath, the block loop, and the ENCRYPT and DECRYPT commands (43_cipher.md). -/

namespace Sys2Proof.Machine

/-- `BlockXor(B, K)`, 32 independent byte lanes (R120). -/
def blockXor (b : List Byte) (k : Digest) : List Byte := xorBytes b k.toList

/-- The block loop of R121 over the `n` blocks of `x` still to come, BLK being `i`: IDXBUF, INH and KEY are loaded for each block, and the
block is XORed with KEY. -/
def cipherLoop (P : Ports) : Nat → Nat → Datapath → List Byte → Datapath × List Byte
  | 0, _, dp, _ => (dp, [])
  | n + 1, i, dp, x =>
    let dp1 := loadBlockKey P (BitVec.ofNat 64 i) { dp with blk := BitVec.ofNat 64 i }
    let rest := cipherLoop P n (i + 1) dp1 (x.drop 32)
    (rest.1, blockXor (x.take 32) dp1.key ++ rest.2)

/-- `CipherBlocks` with PDIG and NDIG in the datapath (R121): NBLK = len(X) / 32, then the loop from BLK = 0. -/
def cipherBlocks (P : Ports) (dp : Datapath) (x : List Byte) : Datapath × List Byte :=
  cipherLoop P (x.length / 32) 0 { dp with nblk := BitVec.ofNat 64 (x.length / 32) } x

/-- The course of `EncryptWith(D, P, N)` (R122) in the datapath, with its wire message. -/
def encryptRun (P : Ports) (d pw : List Byte) (n : Digest) (dp : Datapath) : Datapath × List Byte :=
  let f := frameBytes d
  let c := cipherBlocks P (loadDigests P pw n { dp with frm := Memory.ofBytes 0 f }) f
  (c.1, (checksum P n c.2).toList ++ n.toList ++ c.2)

/-- `EncryptWith(D, P, N)` (R122), the pure function. -/
def encryptWith (P : Ports) (d pw : List Byte) (n : Digest) : List Byte := (encryptRun P d pw n .zero).2

/-- The course of `DecryptFn(W, P)` (R123) in the datapath; the checks stand in R159's order. -/
def decryptRun (P : Ports) (w pw : List Byte) (dp : Datapath) : Except CmdError (Datapath × List Byte) :=
  if pw.length = 0 then .error .invalidPassword
  else if messageLengthOk w = false then .error .format
  else if checksumMatches P w = false then .error .integrity
  else
    let c := cipherBlocks P (loadDigests P pw (messageNonce w) dp) (messageCiphertext w)
    match unframeBytes c.2 with
    | .error e => .error e
    | .ok r => .ok ({ c.1 with frm := Memory.ofBytes 0 c.2 }, r)

/-- `DecryptFn(W, P)` (R123), the pure function. -/
def decryptFn (P : Ports) (w pw : List Byte) : Except CmdError (List Byte) := (decryptRun P w pw .zero).map Prod.snd

/-- The body of ENCRYPT (R124): the draw comes after both operand checks (R126). -/
def encryptBody (P : Ports) (s : State) : Except CmdError State :=
  match passwordCheck s with
  | some e => .error e
  | none =>
    let r := encryptRun P (inputBytes s) (passwordBytes s) (nextNonce s) s.dp
    .ok (writeResult r.2 { drawNonce s with dp := r.1 })

/-- ENCRYPT (R124): encrypt IN under the password into a wire message in OUT. -/
def execEncrypt (s : State) : Host.Outcome State Fault Refusal := .next (runBody true (encryptBody Config.ports) s)

/-- The body of DECRYPT (R125). -/
def decryptBody (P : Ports) (s : State) : Except CmdError State :=
  match passwordCheck s with
  | some e => .error e
  | none =>
    match decryptRun P (inputBytes s) (passwordBytes s) s.dp with
    | .error e => .error e
    | .ok r => .ok (writeResult r.2 { s with dp := r.1 })

/-- DECRYPT (R125): verify and decrypt a wire message in IN into OUT. -/
def execDecrypt (s : State) : Host.Outcome State Fault Refusal := .next (runBody true (decryptBody Config.ports) s)

end Sys2Proof.Machine
end

