-- ==== Sys2Proof/Machine/Dispatch.lean ====
section
/-! DEFINITION. One engine step of each command (60_exceptions.md R156): the arm of the command the latched word selects. -/

namespace Sys2Proof.Machine

def exec (i : Instr) (s : State) : Host.Outcome State Fault Refusal :=
  match i with
  | .encrypt => Sys2Proof.Machine.execEncrypt s
  | .decrypt => Sys2Proof.Machine.execDecrypt s
  | .verify => Sys2Proof.Machine.execVerify s
  | .varint => Sys2Proof.Machine.execVarint s
  | .deriveKey => Sys2Proof.Machine.execDeriveKey s
  | .frame => Sys2Proof.Machine.execFrame s
  | .unframe => Sys2Proof.Machine.execUnframe s

end Sys2Proof.Machine
end

