-- ==== Sys2Proof/WellFormed.lean ====
section
/-! DEFINITION. Static checks: of a command word's fields (30_encoding.md R72), of a command, and of the buffer sizes (00_scope.md R10). -/

namespace Sys2Proof

/-- RSV must be 0 (R70). -/
def CmdFields.rsvOk (f : CmdFields) : Bool := f.rsv == 0

/-- OP must be one of 0x1 to 0x7 (R71, R72). -/
def CmdFields.opOk (f : CmdFields) : Bool := 1 ≤ f.op.toNat && f.op.toNat ≤ 7

/-- The fields are those of a legal command word (R72). -/
def CmdFields.wf (f : CmdFields) : Bool := f.rsvOk && f.opOk

/-- A command has no operand field (R70), so no operand of it can be ill formed. -/
def Instr.wf : Instr → Bool
  | .encrypt | .decrypt | .verify | .varint | .deriveKey | .frame | .unframe => true

/-- 1 <= PWD_CAP <= 256 (R10). -/
def Params.pwdCapOk (p : Params) : Bool := 1 ≤ p.pwdCap && p.pwdCap ≤ 256

/-- IN_CAP is a multiple of 32 (R10). -/
def Params.inCapAligned (p : Params) : Bool := p.inCap % 32 == 0

/-- 96 <= IN_CAP <= 65440 (R10). -/
def Params.inCapInRange (p : Params) : Bool := 96 ≤ p.inCap && p.inCap ≤ 65440

/-- The sizes are ones R10 admits. -/
def Params.wf (p : Params) : Bool := p.pwdCapOk && p.inCapAligned && p.inCapInRange

end Sys2Proof
end

