-- ==== Sys2Proof/Decode.lean ====
section
/-! DEFINITION. The command-word decoder, total on every word, and the encoder (30_encoding.md R70, R71, R72). -/

namespace Sys2Proof

/-- Split a command word into OP and RSV (R70). -/
def cmdFields (w : Word) : CmdFields := { op := w.extractLsb' 0 4, rsv := w.extractLsb' 4 28 }

/-- The word with the given fields (R70). -/
def cmdWord (f : CmdFields) : Word := f.rsv ++ f.op

/-- The opcode map of R71; OP 0x0 and 0x8 to 0xF select nothing (R72). -/
def instrOfOp (op : BitVec 4) : Except DecodeError Instr :=
  match op.toNat with
  | 0 => .error .opZero
  | 1 => .ok .encrypt
  | 2 => .ok .decrypt
  | 3 => .ok .verify
  | 4 => .ok .varint
  | 5 => .ok .deriveKey
  | 6 => .ok .frame
  | 7 => .ok .unframe
  | _ => .error .opReserved

/-- Decode a latched command word: a command exactly when the whole 32-bit word is that row's word (R71), else a named error (R72). -/
def decode (w : Word) : Except DecodeError Instr :=
  if (cmdFields w).rsv = 0 then instrOfOp (cmdFields w).op else .error .reservedBitsSet

/-- The OP value R71 gives a command. -/
def opOfInstr : Instr → BitVec 4
  | .encrypt => 0x1
  | .decrypt => 0x2
  | .verify => 0x3
  | .varint => 0x4
  | .deriveKey => 0x5
  | .frame => 0x6
  | .unframe => 0x7

/-- The command word of a command (R71): its OP, with RSV 0. -/
def encode (i : Instr) : Word := cmdWord { op := opOfInstr i, rsv := 0 }

/-- The command my decoder reads from an instruction of `nbits` bits `w`, the bits above `nbits` being 0. Every command word is exactly
32 bits (R74): a longer nonzero value is none. -/
def decodeTableWord (nbits w : Nat) : Option Instr :=
  if w % 2 ^ nbits < 2 ^ 32 then (decode (BitVec.ofNat 32 (w % 2 ^ nbits))).toOption else none

end Sys2Proof
end

