-- ==== Sys2Proof/Machine/Window.lean ====
section
/-! DEFINITION. The host's accesses to the window: address map, bus errors, register and buffer semantics (20_memory.md R50 to R60,
70_reset_and_hazards.md R184 to R186). -/

namespace Sys2Proof.Machine

/-- The platform address of a window offset (R50). -/
def platformAddress (off : Nat) : Nat := Config.base + off

/-- The register at an offset below 0x100; none where the offset is reserved (R51, 10_state.md R31). -/
def regAt (off : Nat) : Option Reg :=
  match off / 4 with
  | 0 => some .ctrl
  | 1 => some .cmd
  | 2 => some .status
  | 3 => some .errCode
  | 4 => some .pwdLen
  | 5 => some .inLen
  | 6 => some .outLen
  | 8 => some .indexLo
  | 9 => some .indexHi
  | _ => none

/-- The offset lies in the mapped bytes of the buffer (R51). -/
def inBuffer (p : Params) (b : Buffer) (off : Nat) : Bool := bufBase b ≤ off && off < bufBase b + bufCap p b

/-- What the address map puts at an offset; none where it is reserved or unmapped (R51). -/
def regionAt (p : Params) (off : Nat) : Option Region :=
  if off < pwdBase then (regAt off).map .reg
  else if inBuffer p .pwd off then some (.buf .pwd)
  else if inBuffer p .inp off then some (.buf .inp)
  else if inBuffer p .out off then some (.buf .out)
  else none

/-- The check of a 1-byte access: only a mapped buffer byte passes (R52, R54). -/
def check8 (p : Params) (off : Nat) : Except Fault Buffer :=
  if windowSize ≤ off then .error (.outsideWindow off)
  else
    match regionAt p off with
    | none => .error (.unmapped off)
    | some (.reg _) => .error (.wrongWidth off)
    | some (.buf b) => .ok b

/-- The check of a 4-byte access: aligned, and all four bytes in one mapped region (R53, R54). Which cause a doubly wrong access reports
is the model's order (log entry 8). -/
def check32 (p : Params) (off : Nat) : Except Fault Region :=
  if windowSize ≤ off then .error (.outsideWindow off)
  else
    match regionAt p off with
    | none => .error (.unmapped off)
    | some r =>
      if off % 4 ≠ 0 then .error (.misaligned off)
      else if regionAt p (off + 3) ≠ some r then .error (.unmapped off)
      else .ok r

/-- The value a read of a register returns (R56); OUT_LEN while BUSY is a free value (R185). -/
def readReg (r : Reg) (s : State) : Word :=
  match r with
  | .ctrl => ctrlWord s.ctrlIE
  | .cmd => s.cmd
  | .status => statusWord s.status
  | .errCode => errCodeWord s.errCode
  | .pwdLen => s.pwdLen
  | .inLen => s.inLen
  | .outLen => if s.status.busy then nextBusyValue s else s.outLen
  | .indexLo => s.indexLo
  | .indexHi => s.indexHi

/-- The read of this region uses up a free value: OUT_LEN and OUT while BUSY (R185). -/
def readsFree (r : Region) (s : State) : Bool := s.status.busy && (r == .reg .outLen || r == .buf .out)

/-- The byte a read of a buffer byte returns: PWD reads 0x00 (R57), IN its byte (R58), OUT its byte while IDLE and a free value while
BUSY (R59). -/
def readBuf8 (b : Buffer) (off : Nat) (s : State) : Byte :=
  match b with
  | .pwd => 0
  | .inp => s.mem.read off
  | .out => if s.status.busy then (nextBusyValue s).setWidth 8 else s.mem.read off

/-- The word a 4-byte read of a buffer returns, little-endian (R55). -/
def readBuf32 (b : Buffer) (off : Nat) (s : State) : Word :=
  match b with
  | .pwd => 0
  | .inp => wordOfLe (s.mem.readBytes off 4)
  | .out => if s.status.busy then nextBusyValue s else wordOfLe (s.mem.readBytes off 4)

/-- The word a 4-byte read of a region returns. -/
def readRegion (r : Region) (off : Nat) (s : State) : Word :=
  match r with
  | .reg x => readReg x s
  | .buf b => readBuf32 b off s

/-- A read changes no register and no buffer (R60); a free value it returned is used up. -/
def afterRead (r : Region) (s : State) : State := if readsFree r s then drawBusyValue s else s

/-- A write of an operand or of CMD while BUSY is ignored and sets HAZ (R184, R186). -/
def unlessBusy (f : State → State) (s : State) : State := if s.status.busy then hazard s else f s

/-- A host write of a register (R56; 10_state.md R23 to R30). -/
def writeReg (r : Reg) (v : Word) (s : State) : State :=
  match r with
  | .ctrl => { s with ctrlIE := ieAfterWrite v }
  | .cmd => unlessBusy (startCommand v) s
  | .status => writeStatus v s
  | .errCode => s
  | .pwdLen => unlessBusy (fun t => { t with pwdLen := v }) s
  | .inLen => unlessBusy (fun t => { t with inLen := v }) s
  | .outLen => s
  | .indexLo => unlessBusy (fun t => { t with indexLo := v }) s
  | .indexHi => unlessBusy (fun t => { t with indexHi := v }) s

/-- A host write of buffer bytes (R57, R58); OUT is not writable, a bus error in every phase (R59). -/
def writeBuf (b : Buffer) (off : Nat) (bs : List Byte) (s : State) : Except Fault State :=
  match b with
  | .out => .error (.outWrite off)
  | .pwd | .inp => .ok (unlessBusy (fun t => { t with mem := t.mem.store off bs }) s)

/-- A 4-byte write of a region. -/
def writeRegion (r : Region) (off : Nat) (v : Word) (s : State) : Except Fault State :=
  match r with
  | .reg x => .ok (writeReg x v s)
  | .buf b => writeBuf b off (le32 v) s

/-- Record what the host received. -/
def respond (x : Response) (s : State) : State := { s with responses := s.responses ++ [x] }

/-- `MemRead(off, 1)`: the byte and the state after it (R52). -/
def memRead8 (off : Nat) (s : State) : Except Fault (Byte × State) :=
  (check8 s.params off).map fun b => (readBuf8 b off s, afterRead (.buf b) s)

/-- `MemRead(off, 4)` (R52). -/
def memRead32 (off : Nat) (s : State) : Except Fault (Word × State) :=
  (check32 s.params off).map fun r => (readRegion r off s, afterRead r s)

/-- `MemWrite(off, 1, v)` (R52). -/
def memWrite8 (off : Nat) (v : Byte) (s : State) : Except Fault State :=
  match check8 s.params off with
  | .error f => .error f
  | .ok b => writeBuf b off [v] s

/-- `MemWrite(off, 4, v)` (R52). -/
def memWrite32 (off : Nat) (v : Word) (s : State) : Except Fault State :=
  match check32 s.params off with
  | .error f => .error f
  | .ok r => writeRegion r off v s

/-- One host access with its response; a bus error is an error here and returns nothing (R54). -/
def hostAccess (a : Access) (s : State) : Except Fault State :=
  match a with
  | .read8 off => (memRead8 off s).map fun x => respond (.byte x.1) x.2
  | .read32 off => (memRead32 off s).map fun x => respond (.word x.1) x.2
  | .write8 off v => (memWrite8 off v s).map (respond .written)
  | .write32 off v => (memWrite32 off v s).map (respond .written)

end Sys2Proof.Machine
end

