-- ==== Sys2Proof/Machine/HostScript.lean ====
section
/-! DEFINITION. The host agent: its script notation and pseudo-instructions (30_encoding.md R79, R80) and one host step. -/

namespace Sys2Proof.Machine

/-- Offset of CMD (10_state.md R24). -/
def cmdOffset : Nat := 0x004

/-- Offset of STATUS (10_state.md R25). -/
def statusOffset : Nat := 0x008

/-- Offset of PWD_LEN (10_state.md R27). -/
def pwdLenOffset : Nat := 0x010

/-- Offset of IN_LEN (10_state.md R28). -/
def inLenOffset : Nat := 0x014

/-- Offset of OUT_LEN (10_state.md R29). -/
def outLenOffset : Nat := 0x018

/-- Offset of INDEX_LO (10_state.md R30). -/
def indexLoOffset : Nat := 0x020

/-- Offset of INDEX_HI (10_state.md R30). -/
def indexHiOffset : Nat := 0x024

/-- `WB off, bytes`: one W8 a byte, at rising offsets (R80). -/
def expandBytes : Nat → List Byte → List HostLine
  | _, [] => []
  | off, b :: bs => .access (.write8 off b) :: expandBytes (off + 1) bs

/-- The expansions of R80. WAIT and RESULT depend on what the host reads and stay one line each. -/
def expandPseudo : Pseudo → List HostLine
  | .line a => [.access a]
  | .wb off bytes => expandBytes off bytes
  | .setPwd bytes => expandBytes pwdBase bytes ++ [.access (.write32 pwdLenOffset (BitVec.ofNat 32 bytes.length))]
  | .setIn bytes => expandBytes inBase bytes ++ [.access (.write32 inLenOffset (BitVec.ofNat 32 bytes.length))]
  | .setIdx v =>
    [.access (.write32 indexLoOffset (v.extractLsb' 0 32)), .access (.write32 indexHiOffset (v.extractLsb' 32 32))]
  | .start m => [.access (.write32 cmdOffset (encode m))]
  | .wait => [.wait]
  | .ack => [.access (.write32 statusOffset 0x00000012)]
  | .result => [.result]

/-- A host program (R79, R80), written out. -/
def expandScript (ps : List Pseudo) : List HostLine := ps.flatMap expandPseudo

/-- WAIT's exit condition on the value read: `s & 0x3 = 0x2` (R80). -/
def waitDone (v : Word) : Bool := v &&& 3 == 2

/-- RESULT's byte reads: `R8 0x20000+j` for j = 0..len-1 (R80). -/
def resultReads (len : Word) : List HostLine := (List.range len.toNat).map fun j => .access (.read8 (outBase + j))

/-- One line of the host's program: one window access (10_state.md R22). WAIT stays in the script until its condition holds; RESULT leaves
its byte reads to be done (R80). -/
def runHostLine (l : HostLine) (s : State) : Except Fault State :=
  match l with
  | .access a => hostAccess a s
  | .wait =>
    (memRead32 statusOffset s).map fun x =>
      respond (.word x.1) (if waitDone x.1 then x.2 else { x.2 with script := .wait :: x.2.script })
  | .result =>
    (memRead32 outLenOffset s).map fun x =>
      respond (.word x.1) { x.2 with script := resultReads x.1 ++ x.2.script }

/-- One host step. A bus error is a fault of the host step (20_memory.md R54); a host with nothing left to do leaves everything as it is. -/
def hostTurn (s : State) : Host.Outcome State Fault Refusal :=
  match s.script with
  | [] => .next s
  | l :: rest =>
    match runHostLine l { s with script := rest } with
    | .ok t => .next t
    | .error f => .fault f

end Sys2Proof.Machine
end

