-- ==== Sys2Proof/Machine/Turns.lean ====
section
/-! DEFINITION. Whose turn it is and what a turn does (10_state.md R22, 20_memory.md R62, 70_reset_and_hazards.md R180, R195). -/

namespace Sys2Proof.Machine

/-- The latched command word, the one word the engine decodes (20_memory.md R65). -/
def latchedCommand (s : State) : Word := s.cmd

/-- The engine's turn (60_exceptions.md R156): the engine step while BUSY; while IDLE no engine step is enabled (R22). -/
def engineTurn (s : State) : Host.Outcome State Fault Refusal :=
  if s.status.busy then
    match decode (latchedCommand s) with
    | .ok i => exec i s
    | .error _ => execIllegal s
  else .next s

/-- Who moves next: the schedule's head; when it has run out, the engine while BUSY (the weak fairness of R195), else the host (log
entry 1). -/
def whoMoves (s : State) : Turn := s.schedule.headD (if s.status.busy then .engine else .host)

/-- The turn is taken off the schedule. -/
def takeTurn (s : State) : State := { s with schedule := s.schedule.tail }

/-- One turn of the agent named. -/
def runTurn (t : Turn) (s : State) : Host.Outcome State Fault Refusal :=
  match t with
  | .host => hostTurn s
  | .engine => engineTurn s
  | .reset => .next (platformReset s)

end Sys2Proof.Machine
end

