-- ==== Sys2Proof/Machine/Step.lean ====
section
/-! DEFINITION. One step of the machine, and where the host's question about one command word is put. -/

namespace Sys2Proof.Machine

/-- One event of a run (20_memory.md R62): one host access, one engine step or one reset. -/
def step (s : State) : Host.Outcome State Fault Refusal := runTurn (whoMoves s) (takeTurn s)

/-- `s` with the word latched by an accepted CMD write (60_exceptions.md R157) and the engine next to move: the next step is the engine
step of that word (log entry 9). -/
def State.withFetchWord (s : State) (nbits w : Nat) : State :=
  { startCommand (BitVec.ofNat 32 (w % 2 ^ nbits)) s with schedule := .engine :: s.schedule }

end Sys2Proof.Machine
end

