-- ==== Sys2Proof/Safety.lean ====
section
/-! DEFINITION. What a legal state is, and what a safe step is, in the terms the claims use. -/

namespace Sys2Proof.Machine

/-- BUSY = 1 implies DONE = 0, ERR = 0 and VOK = 0 (10_state.md R25), and ERR_CODE is 0 (70_reset_and_hazards.md R185). -/
def busyFlagsClear (s : State) : Bool :=
  !s.status.busy || (!s.status.done && !s.status.err && !s.status.vok && s.errCode == 0)

/-- ERR is 1 exactly when ERR_CODE is not 0, and then nothing was returned (60_exceptions.md R158). -/
def errorReported (s : State) : Bool :=
  s.status.err == (s.errCode != 0) && (!s.status.err || (s.outLen == 0 && !s.status.vok))

/-- ERR_CODE is a code of R150; 6 to 15 are never written. -/
def errCodeDefined (s : State) : Bool := s.errCode ≤ 5

/-- Every byte the store lists lies in a mapped buffer (20_memory.md R51). -/
def bytesMapped (s : State) : Bool :=
  s.mem.all fun c => inBuffer s.params .pwd c.1 || inBuffer s.params .inp c.1 || inBuffer s.params .out c.1

/-- OUT_LEN is at most OUT_CAP, and every byte of OUT at or after OUT_LEN is zero (10_state.md R34). -/
def outTailZero (s : State) : Bool :=
  s.outLen.toNat ≤ outCap s.params
    && s.mem.all fun c => !inBuffer s.params .out c.1 || c.1 < outBase + s.outLen.toNat

/-- The internal datapath is zero between steps (10_state.md R36). -/
def datapathZero (s : State) : Bool := s.dp == .zero

/-- The states the engine can be in between two events of a run. -/
structure Legal (s : State) : Prop where
  params : s.params.wf = true
  canonical : s.mem.wf = true
  mapped : bytesMapped s = true
  outTail : outTailZero s = true
  busyFlags : busyFlagsClear s = true
  errFlag : errorReported s = true
  errCode : errCodeDefined s = true
  datapath : datapathZero s = true

/-- The step does not stop the machine. -/
def StepSafe (s : State) : Prop := ∃ t, step s = .next t

/-- A run of `k` steps does not stop the machine. -/
def RunSafe (k : Nat) (s : State) : Prop := ∃ t, Sys2Proof.core.run k s = .next t

end Sys2Proof.Machine
end

