-- ==== Sys2Proof/Certificates/Slice0/Obligations.lean ====
section
/-! DEFINITION. The statements for the provers. `Config.ports` is opaque: a statement that names it holds for every Sha256, PasswordHash and
DigestAdd; the statements about the pure functions take the ports as an argument. The engine's draws and the interleaving are fields of
State, so a statement about every state holds for every draw and every interleaving. -/

namespace Sys2Proof.Claims

open Sys2Proof.Machine

/-! ## The vocabulary of the statements -/

/-- OUT holds the bytes `bs` and zeros after them, and OUT_LEN counts them (10_state.md R34). -/
def OutHolds (t : State) (bs : List Byte) : Prop :=
  t.outLen.toNat = bs.length ∧ bs.length ≤ outCap t.params ∧
    ∀ j, j < outCap t.params → t.mem.read (outBase + j) = bs.getD j 0

/-- Every byte outside OUT reads as before. -/
def KeptOutsideOut (s t : State) : Prop :=
  ∀ a, ¬(outBase ≤ a ∧ a < outBase + outCap s.params) → t.mem.read a = s.mem.read a

/-- Every byte outside OUT and PWD reads as before. -/
def KeptOutsideOutAndPwd (s t : State) : Prop :=
  ∀ a, ¬(outBase ≤ a ∧ a < outBase + outCap s.params) → ¬(pwdBase ≤ a ∧ a < pwdBase + s.params.pwdCap) →
    t.mem.read a = s.mem.read a

/-- What no engine step writes: the sizes, CTRL, CMD, IN_LEN, INDEX, HAZ, the host's program, the schedule, the responses, and the
supply of busy reads; and the internal datapath is zero afterwards (R36). -/
structure KeptByEngine (s t : State) : Prop where
  params : t.params = s.params
  ctrlIE : t.ctrlIE = s.ctrlIE
  cmd : t.cmd = s.cmd
  inLen : t.inLen = s.inLen
  indexLo : t.indexLo = s.indexLo
  indexHi : t.indexHi = s.indexHi
  haz : t.status.haz = s.status.haz
  script : t.script = s.script
  schedule : t.schedule = s.schedule
  responses : t.responses = s.responses
  busySupply : t.busySupply = s.busySupply
  busyCount : t.busyCount = s.busyCount
  dp : t.dp = Datapath.zero

/-- No RNG request was made. -/
def NoDraw (s t : State) : Prop := t.events = s.events ∧ t.rngSupply = s.rngSupply ∧ t.rngCount = s.rngCount

/-- Exactly one RNG request was made; the event record gained it with the 32 bytes drawn (R39, R126). -/
def OneDraw (s t : State) : Prop :=
  t.events = s.events ++ [.rngReq (nextNonce s)] ∧ t.rngSupply = s.rngSupply.tail ∧ t.rngCount = s.rngCount + 1

/-- PWD is all zero and PWD_LEN is 0 (43_cipher.md R127). -/
def PasswordZeroized (s t : State) : Prop :=
  t.pwdLen = 0 ∧ ∀ j, j < s.params.pwdCap → t.mem.read (pwdBase + j) = 0

/-- ERR_CODE's numbers, written from R150. -/
def codeNumber : CmdError → BitVec 4
  | .invalidPassword => 1
  | .format => 2
  | .integrity => 3
  | .illegalCommand => 4
  | .capacity => 5

/-- The flags and ERR_CODE of a completion without error (R156), with the VOK given. -/
def Succeeded (t : State) (vok : Bool) : Prop :=
  t.status.busy = false ∧ t.status.done = true ∧ t.status.err = false ∧ t.status.vok = vok ∧ t.errCode = 0

/-- The flags, ERR_CODE and output of an error completion (R158). -/
def Failed (t : State) (e : CmdError) : Prop :=
  t.status.busy = false ∧ t.status.done = true ∧ t.status.err = true ∧ t.status.vok = false ∧ t.errCode = codeNumber e ∧
    OutHolds t []

/-- The whole effect of a successful command that uses no password: the result in OUT, the flags, and nothing else. -/
def PlainEffect (s t : State) (bs : List Byte) (vok : Bool) : Prop :=
  OutHolds t bs ∧ Succeeded t vok ∧ KeptByEngine s t ∧ NoDraw s t ∧ t.pwdLen = s.pwdLen ∧ KeptOutsideOut s t

/-- The effect of a successful command that uses the password, less its RNG requests. -/
def PasswordEffect (s t : State) (bs : List Byte) : Prop :=
  OutHolds t bs ∧ Succeeded t false ∧ KeptByEngine s t ∧ PasswordZeroized s t ∧ KeptOutsideOutAndPwd s t

/-- Block i of `x` XORed with the block key of index i, for i = 0 .. len(x)/32 - 1: R121's function with each key computed afresh from
R102 and no loop state. -/
def keystreamXor (P : Ports) (pd nd : Digest) (x : List Byte) : List Byte :=
  (List.range (x.length / 32)).flatMap fun i =>
    xorBytes ((x.drop (32 * i)).take 32) (deriveBlockKey P pd (BitVec.ofNat 64 i) nd).toList

/-- The wire message of R122: Digest(N ‖ C) ‖ N ‖ C, where C is the frame under the keystream. -/
def wireMessage (P : Ports) (d pw : List Byte) (n : Digest) : List Byte :=
  let c := keystreamXor P (P.passwordHash pw) (P.sha256 n.toList) (frameBytes d)
  (P.sha256 (n.toList ++ c)).toList ++ n.toList ++ c

/-- The frame that a wire message decrypts to (R123): the bytes from 64 on, under the keystream of the nonce in bytes 32 to 63. -/
def recoveredFrame (P : Ports) (w pw : List Byte) : List Byte :=
  keystreamXor P (P.passwordHash pw) (P.sha256 ((w.drop 32).take 32)) (w.drop 64)

/-- The length field of a frame: F[0] | F[1] << 8 | F[2] << 16 | F[3] << 24 (R112), as a number. -/
def lengthField (f : List Byte) : Nat :=
  (f.getD 0 0).toNat + 256 * (f.getD 1 0).toNat + 65536 * (f.getD 2 0).toNat + 16777216 * (f.getD 3 0).toNat

/-- len(W) = 64 + 32k for an integer k >= 0 (R123). -/
def WellFormedLength (w : List Byte) : Prop := ∃ k, w.length = 64 + 32 * k

/-- Digest(W[32..64) ‖ W[64..len(W))) = W[0..32) (R141). -/
abbrev ChecksumHolds (P : Ports) (w : List Byte) : Prop := (P.sha256 (w.drop 32)).toList = w.take 32

/-- The operand checks of ENCRYPT, DECRYPT and DERIVE_KEY pass (R151, R155). -/
def PasswordOperandsOk (s : State) : Prop :=
  s.pwdLen ≠ 0 ∧ s.pwdLen.toNat ≤ s.params.pwdCap ∧ s.inLen.toNat ≤ s.params.inCap

/-- The command uses the password (R127). -/
def usesPassword : Instr → Bool
  | .encrypt | .decrypt | .deriveKey => true
  | .verify | .varint | .frame | .unframe => false

/-- The first error of R159's table, written from R151 to R155. -/
def firstError (i : Instr) (s : State) : Option CmdError :=
  let w := inputBytes s
  let emptyPassword := s.pwdLen = 0
  let inputOver := s.params.inCap < s.inLen.toNat
  let tooLong := s.params.pwdCap < s.pwdLen.toNat ∨ inputOver
  match i with
  | .varint => none
  | .verify | .frame => if inputOver then some .capacity else none
  | .unframe =>
    if inputOver then some .capacity
    else if s.inLen.toNat < 4 ∨ s.inLen.toNat - 4 < lengthField w then some .format
    else none
  | .encrypt => if emptyPassword then some .invalidPassword else if tooLong then some .capacity else none
  | .deriveKey =>
    if emptyPassword then some .invalidPassword
    else if tooLong then some .capacity
    else if s.inLen.toNat ≠ 32 then some .format
    else none
  | .decrypt =>
    if emptyPassword then some .invalidPassword
    else if tooLong then some .capacity
    else if s.inLen.toNat < 64 ∨ (s.inLen.toNat - 64) % 32 ≠ 0 then some .format
    else if ¬ChecksumHolds Config.ports w then some .integrity
    else if s.inLen.toNat = 64 ∨ s.inLen.toNat - 68 < lengthField (recoveredFrame Config.ports w (passwordBytes s)) then
      some .format
    else none

/-- A defined register starts at this offset or the offset lies inside one (20_memory.md R51). -/
def RegisterByte (off : Nat) : Prop := off < 0x1C ∨ (0x20 ≤ off ∧ off < 0x28)

/-- The `n` bytes from `off` on lie in the `cap` bytes from `base` on. -/
def Within (off n base cap : Nat) : Prop := base ≤ off ∧ off + n ≤ base + cap

/-- The accesses that R52 to R54 make no bus error. -/
def AccessAllowed (p : Params) : Access → Prop
  | .read8 off => Within off 1 pwdBase p.pwdCap ∨ Within off 1 inBase p.inCap ∨ Within off 1 outBase (p.inCap + 96)
  | .write8 off _ => Within off 1 pwdBase p.pwdCap ∨ Within off 1 inBase p.inCap
  | .read32 off =>
    off % 4 = 0 ∧
      (RegisterByte off ∨ Within off 4 pwdBase p.pwdCap ∨ Within off 4 inBase p.inCap ∨ Within off 4 outBase (p.inCap + 96))
  | .write32 off _ => off % 4 = 0 ∧ (RegisterByte off ∨ Within off 4 pwdBase p.pwdCap ∨ Within off 4 inBase p.inCap)

/-- The two states differ in nothing but the bytes of PWD. -/
def AgreeExceptPassword (s s' : State) : Prop :=
  s' = { s with mem := s'.mem } ∧
    ∀ a, ¬(pwdBase ≤ a ∧ a < pwdBase + s.params.pwdCap) → s'.mem.read a = s.mem.read a

/-- The outcomes are the same, and so are the next states but for the bytes of PWD. -/
def SameOutcomeExceptPassword (o o' : Host.Outcome State Fault Refusal) : Prop :=
  match o, o' with
  | .next t, .next t' => AgreeExceptPassword t t'
  | .fault f, .fault f' => f = f'
  | .refused r, .refused r' => r = r'
  | _, _ => False

end Sys2Proof.Claims

open Sys2Proof Sys2Proof.Machine Sys2Proof.Claims

/-! ## Reset, decoding and the step -/

/-- R40. After reset the phase is IDLE, every register reads 0, every byte of the window is 0x00, the internal state is zero, IRQ is 0;
whatever the engine's sizes. -/
def Obligations.ResetStateIsZero : Prop :=
  ∀ p : Params, (State.resetWith p).phase = .idle ∧ (∀ r : Reg, readReg r (State.resetWith p) = 0) ∧
    (∀ a, (State.resetWith p).mem.read a = 0) ∧ (State.resetWith p).dp = Datapath.zero ∧ (State.resetWith p).irq = false ∧
    State.reset = State.resetWith { pwdCap := 256, inCap := 4096 }

/-- R180. A reset turn, in any state, enters R40's state of the same engine and keeps the event record. That a reset is a turn of the
schedule is the model's choice (log entry 1). -/
def Obligations.ResetTurnEntersResetState : Prop :=
  ∀ s : State, whoMoves s = .reset → ∃ t, step s = .next t ∧ t.phase = .idle ∧ (∀ r : Reg, readReg r t = 0) ∧
    (∀ a, t.mem.read a = 0) ∧ t.dp = Datapath.zero ∧ t.irq = false ∧ t.events = s.events ∧ t.params = s.params ∧
    t.schedule = s.schedule.tail

/-- R71, R72. A word selects a command exactly when it is, as a whole, that command's word of the table; it is illegal exactly when OP is
0x0, OP is in 0x8 to 0xF, or some RSV bit is 1. -/
def Obligations.DecodeMatchesWholeWords : Prop :=
  (∀ (w : Word) (i : Instr), decode w = .ok i ↔
    w = (match i with
      | .encrypt => 0x00000001
      | .decrypt => 0x00000002
      | .verify => 0x00000003
      | .varint => 0x00000004
      | .deriveKey => 0x00000005
      | .frame => 0x00000006
      | .unframe => 0x00000007)) ∧
  ∀ w : Word, (∃ e, decode w = .error e) ↔ (w.toNat % 16 = 0 ∨ 8 ≤ w.toNat % 16 ∨ 16 ≤ w.toNat)

/-- Decoding an encoded well-formed command gives it back, and the host's question about a table word is the same decoder. -/
def Obligations.DecodeInvertsEncode : Prop :=
  ∀ i : Instr, i.wf = true → decode (encode i) = .ok i ∧ decodeTableWord 32 (encode i).toNat = some i

/-- Words written out bit by bit from R70 and R71. -/
def Obligations.WrittenOutWordsDecode : Prop :=
  decode 0b00000000000000000000000000000001#32 = .ok .encrypt ∧
  decode 0b00000000000000000000000000000100#32 = .ok .varint ∧
  decode 0b00000000000000000000000000000111#32 = .ok .unframe ∧
  decode 0b00000000000000000000000000000000#32 = .error .opZero ∧
  decode 0b00000000000000000000000000001000#32 = .error .opReserved ∧
  decode 0b10000000000000000000000000000001#32 = .error .reservedBitsSet

/-- A step runs the decoded command: when the engine moves, is BUSY, and the latched word decodes to a well-formed command, the step is
that command's exec on the state whose schedule has lost this turn and is otherwise unchanged (R156). -/
def Obligations.StepRunsDecodedCommand : Prop :=
  ∀ (s : State) (i : Instr), whoMoves s = .engine → s.status.busy = true → decode s.cmd = .ok i → i.wf = true →
    step s = exec i { s with schedule := s.schedule.tail }

/-- R22, R62, R171, R195. The schedule's head moves, whatever it is; when the schedule has run out a BUSY engine moves; no engine step is
enabled in IDLE; an idle machine whose host has nothing to do holds all its state. The form of the schedule, who moves when it has run out,
and the stutter are the model's choice (log entry 1). -/
def Obligations.TurnsFollowTheSchedule : Prop :=
  (∀ (s : State) (x : Turn) (rest : List Turn), s.schedule = x :: rest → step s = runTurn x { s with schedule := rest }) ∧
  (∀ s : State, s.schedule = [] → s.status.busy = true → step s = engineTurn s) ∧
  (∀ s : State, s.status.busy = false → engineTurn s = .next s) ∧
  (∀ s : State, s.status.busy = false → s.schedule = [] → s.script = [] → step s = .next s)

/-- R156. A BUSY engine's turn always completes: a next state with BUSY = 0 and DONE = 1, HAZ as it was, ERR exactly for a code other than
0, and IN, IN_LEN and INDEX untouched. -/
def Obligations.EngineAlwaysCompletes : Prop :=
  ∀ s : State, s.params.wf = true → s.status.busy = true → ∃ t, engineTurn s = .next t ∧
    t.status.busy = false ∧ t.status.done = true ∧ t.status.err = (t.errCode != 0) ∧ KeptByEngine s t ∧
    ∀ j, j < s.params.inCap → t.mem.read (inBase + j) = s.mem.read (inBase + j)

/-- Every step keeps `Legal`: the byte store stays canonical and inside the mapped buffers, OUT is zero from OUT_LEN on (R34), BUSY
implies DONE = ERR = VOK = 0 (R25), ERR goes with the code (R158), the code is one of R150, and the internal state is zero (R36). -/
def Obligations.StepKeepsLegal : Prop := ∀ s t : State, Legal s → step s = .next t → Legal t

/-- The reset state is legal. -/
def Obligations.ResetIsLegal : Prop := Legal State.reset

/-! ## Varint -/

/-- R90. ZigZag's two forms, its values, its parity, and that it is a bijection. -/
def Obligations.ZigZagForms : Prop :=
  (∀ v : DWord, zigZag v = if 0 ≤ v.toInt then 2 * v else ~~~(2 * v)) ∧
  zigZag 0 = 0 ∧ zigZag (-1) = 1 ∧ zigZag 1 = 2 ∧ zigZag 0x7FFFFFFFFFFFFFFF = 0xFFFFFFFFFFFFFFFE ∧
  zigZag 0x8000000000000000 = 0xFFFFFFFFFFFFFFFF ∧
  (∀ v : DWord, (zigZag v).toNat % 2 = if 0 ≤ v.toInt then 0 else 1) ∧
  Function.Bijective zigZag

/-- R91. Leb is the loop of the rule, with no bound on its length but the value's own. -/
def Obligations.LebFollowsItsLoop : Prop :=
  ∀ u : DWord,
    leb u = (if 0x80 ≤ u.toNat then (u.extractLsb' 0 8 ||| 0x80) :: leb (u >>> 7) else [u.extractLsb' 0 8]) ∧
    u.extractLsb' 0 8 ||| 0x80 = (u.extractLsb' 0 7).setWidth 8 ||| 0x80

/-- R93. The encoding's length: 1 for a zero ZigZag value, else ceil(b/7) for its bit length b; 1 to 10; 10 exactly from 2^63 on. It fits
every destination, and VARINT never raises an error. -/
def Obligations.VarintLength : Prop :=
  (∀ v : DWord, (zigZag v = 0 → (encodeVarint v).length = 1) ∧
    (zigZag v ≠ 0 → (encodeVarint v).length = ((zigZag v).toNat.log2 + 1 + 6) / 7) ∧
    1 ≤ (encodeVarint v).length ∧ (encodeVarint v).length ≤ 10 ∧
    ((encodeVarint v).length = 10 ↔ 2 ^ 63 ≤ (zigZag v).toNat)) ∧
  (∀ p : Params, p.wf = true → 192 ≤ outCap p) ∧
  (∀ s : State, ∃ t, exec .varint s = .next t ∧ t.errCode = 0)

/-- R78. The byte format: every byte but the last has bit 7 set, the last has it clear; byte j's low bits are bits 7j+6..7j of the mapped
value; the last byte is 0x00 only for a single byte, and 0x01 for ten. -/
def Obligations.VarintByteFormat : Prop :=
  ∀ v : DWord, ∃ k, (encodeVarint v).length = k ∧ 1 ≤ k ∧ k ≤ 10 ∧
    (∀ j, j + 1 < k → ((encodeVarint v).getD j 0).getLsbD 7 = true) ∧
    ((encodeVarint v).getD (k - 1) 0).getLsbD 7 = false ∧
    (∀ j, j < k → ((encodeVarint v).getD j 0).toNat % 128 = (zigZag v).toNat / 2 ^ (7 * j) % 128) ∧
    ((encodeVarint v).getD (k - 1) 0 = 0 → k = 1) ∧
    (k = 10 → (encodeVarint v).getD 9 0 = 1)

/-- The encodings can be told apart without their length: no encoding is the beginning of another value's, so equal index buffers come from
equal indices (from R78 and R90). -/
def Obligations.VarintIsUniquelyDecodable : Prop :=
  (∀ (v w : DWord) (x y : List Byte), encodeVarint v ++ x = encodeVarint w ++ y → v = w ∧ x = y) ∧
  Function.Injective indexBuffer

/-- R94. VARINT always completes: OUT holds the varint of INDEX, zeros after it, and nothing but OUT, OUT_LEN and the flags changes; with
the rule's corner cases. -/
def Obligations.VarintCompletes : Prop :=
  decode 0x00000004 = .ok .varint ∧
  (∀ s : State, ∃ t, exec .varint s = .next t ∧ PlainEffect s t (encodeVarint (s.indexHi ++ s.indexLo)) false) ∧
  encodeVarint 0 = [0x00] ∧
  (encodeVarint 0x8000000000000000).length = 10 ∧ (encodeVarint 0x8000000000000000).getD 9 0 = 0x01 ∧
  encodeVarint 0x7FFFFFFFFFFFFFFF = [0xFE, 0xFF, 0xFF, 0xFF, 0xFF, 0xFF, 0xFF, 0xFF, 0xFF, 0x01] ∧
  zigZag (0xFFFFFFFF#32 ++ 0xFFFFFFBF#32) = 129 ∧ encodeVarint (0xFFFFFFFF#32 ++ 0xFFFFFFBF#32) = [0x81, 0x01]

/-! ## Block keys -/

/-- R77. The index buffer holds the varint, of 1 to 10 bytes, from byte 0 on, and 0x00 in every later byte of its 32. -/
def Obligations.IndexBufferLayout : Prop :=
  ∀ i : DWord, 1 ≤ (encodeVarint i).length ∧ (encodeVarint i).length ≤ 10 ∧ ∀ (j : Nat) (h : j < 32),
    (indexBuffer i)[j] = if j < (encodeVarint i).length then (encodeVarint i).getD j 0 else 0

/-- R105. Below 2^63 the signed and the unsigned reading of INDEX map to the same value, 2 * INDEX; from 2^63 on the value is odd, and the
encoding has at most ten bytes. -/
def Obligations.IndexSignedness : Prop :=
  ∀ i : DWord, (i.toNat < 2 ^ 63 → (zigZag i).toNat = 2 * i.toNat) ∧
    (2 ^ 63 ≤ i.toNat → (zigZag i).toNat % 2 = 1 ∧ (encodeVarint i).length ≤ 10)

/-- DERIVE_KEY (R104) completes whenever its operand checks pass and IN_LEN = 32: OUT holds DigestAdd(PasswordHash(PWD), Digest(IndexBuffer
‖ Digest(IN))), the password is zeroized, no RNG request is made, and nothing else changes. -/
def Obligations.DeriveKeyCompletes : Prop :=
  ∀ s : State, s.params.wf = true → PasswordOperandsOk s → s.inLen = 32 → ∃ t, exec .deriveKey s = .next t ∧
    PasswordEffect s t
      (Config.ports.digestAdd (Config.ports.passwordHash (passwordBytes s))
        (Config.ports.sha256 ((indexBuffer (s.indexHi ++ s.indexLo)).toList ++
          (Config.ports.sha256 (s.mem.readBytes inBase 32)).toList))).toList ∧
    NoDraw s t

/-! ## Framing -/

/-- R110, R75. A frame's bytes: le32(m), the data, zeros; its length is a positive multiple of 32, with at most 31 padding bytes. -/
def Obligations.FrameLayout : Prop :=
  ∀ d : List Byte, d.length < 2 ^ 32 → ∃ n pad, 1 ≤ n ∧ pad ≤ 31 ∧ 4 + d.length + pad = 32 * n ∧
    n = (4 + d.length + 31) / 32 ∧ (frameBytes d).length = 32 * n ∧
    lengthField (frameBytes d) = d.length ∧ ((frameBytes d).drop 4).take d.length = d ∧
    (frameBytes d).drop (4 + d.length) = List.replicate pad 0

/-- R111. The block count's bounds, and that IN_CAP bounds it by 2046. -/
def Obligations.BlockCountBounds : Prop :=
  ∀ m : Nat, 32 * blockCount m - 31 ≤ 4 + m ∧ 4 + m ≤ 32 * blockCount m ∧
    ∀ p : Params, p.wf = true → m ≤ p.inCap → m < 2 ^ 32 ∧ blockCount m ≤ p.inCap / 32 + 1 ∧ p.inCap / 32 + 1 ≤ 2046

/-- R112, R113. Unframe returns F[4..4+L) exactly when len(F) >= 4 and L <= len(F) - 4, and FORMAT otherwise. -/
def Obligations.UnframeRule : Prop :=
  ∀ f : List Byte,
    ((f.length < 4 ∨ f.length - 4 < lengthField f) → unframeBytes f = .error .format) ∧
    (4 ≤ f.length → lengthField f ≤ f.length - 4 → unframeBytes f = .ok ((f.drop 4).take (lengthField f)))

/-- R114. Neither the padding bytes nor the number of spare bytes matters: a frame with any bytes after its data gives the data. -/
def Obligations.UnframeIgnoresPadding : Prop :=
  ∀ d extra : List Byte, d.length < 2 ^ 32 → unframeBytes (le32 (BitVec.ofNat 32 d.length) ++ d ++ extra) = .ok d

/-- R117. Unframe inverts Frame on everything an engine can hold. -/
def Obligations.UnframeInvertsFrame : Prop :=
  ∀ (p : Params) (d : List Byte), p.wf = true → d.length ≤ p.inCap → unframeBytes (frameBytes d) = .ok d

/-- FRAME (R115) completes whenever IN_LEN <= IN_CAP: OUT holds the frame of IN[0..IN_LEN), OUT_LEN = 32n, and nothing else changes. -/
def Obligations.FrameCompletes : Prop :=
  ∀ s : State, s.params.wf = true → s.inLen.toNat ≤ s.params.inCap → ∃ t, exec .frame s = .next t ∧
    PlainEffect s t (frameBytes (inputBytes s)) false ∧ t.outLen.toNat = 32 * ((4 + s.inLen.toNat + 31) / 32)

/-- UNFRAME (R116) completes whenever IN_LEN <= IN_CAP, IN_LEN >= 4 and the length field fits: OUT holds that many bytes after the field,
and nothing else changes. -/
def Obligations.UnframeCompletes : Prop :=
  ∀ s : State, s.params.wf = true → s.inLen.toNat ≤ s.params.inCap → 4 ≤ s.inLen.toNat →
    lengthField (inputBytes s) ≤ s.inLen.toNat - 4 → ∃ t, exec .unframe s = .next t ∧
      PlainEffect s t (s.mem.readBytes (inBase + 4) (lengthField (inputBytes s))) false

/-! ## The cipher -/

/-- R120. Lane j of BlockXor is B[j] ^ K[j] and depends on no other lane; BlockXor is its own inverse. -/
def Obligations.BlockXorLanes : Prop :=
  ∀ (b : List Byte) (k : Digest), b.length = 32 →
    (blockXor b k).length = 32 ∧ (∀ (j : Nat) (h : j < 32), (blockXor b k).getD j 0 = b.getD j 0 ^^^ k[j]) ∧
    blockXor (blockXor b k) k = b

/-- R121. The block loop over the datapath gives each block XORed with the key of its own index, keeps the length, and never loads PDIG or
NDIG. -/
def Obligations.CipherLoopIsPerBlock : Prop :=
  ∀ (P : Ports) (dp : Datapath) (x : List Byte), x.length % 32 = 0 →
    (cipherBlocks P dp x).2 = keystreamXor P dp.pdig dp.ndig x ∧ (cipherBlocks P dp x).2.length = x.length ∧
    (cipherBlocks P dp x).1.pdig = dp.pdig ∧ (cipherBlocks P dp x).1.ndig = dp.ndig

/-- R122. EncryptWith is Digest(N ‖ C) ‖ N ‖ C, 64 + 32n bytes, with C the frame under the keystream. -/
def Obligations.EncryptWithLayout : Prop :=
  ∀ (P : Ports) (d pw : List Byte) (n : Digest), pw ≠ [] → d.length < 2 ^ 32 →
    encryptWith P d pw n = wireMessage P d pw n ∧
    (encryptWith P d pw n).length = 64 + 32 * ((4 + d.length + 31) / 32)

/-- R123. DecryptFn's outcome, check by check. -/
def Obligations.DecryptFnRule : Prop :=
  ∀ (P : Ports) (w pw : List Byte),
    (pw = [] → decryptFn P w pw = .error .invalidPassword) ∧
    (pw ≠ [] → ¬WellFormedLength w → decryptFn P w pw = .error .format) ∧
    (pw ≠ [] → WellFormedLength w → ¬ChecksumHolds P w → decryptFn P w pw = .error .integrity) ∧
    (pw ≠ [] → WellFormedLength w → ChecksumHolds P w → decryptFn P w pw = unframeBytes (recoveredFrame P w pw)) ∧
    (pw ≠ [] → w.length = 64 → ChecksumHolds P w → decryptFn P w pw = .error .format)

/-- R128. Decryption inverts encryption, for every data, non-empty password and nonce, whatever Sha256, PasswordHash and DigestAdd are. The
data is shorter than 2^32 bytes, as R110 says. A message fits IN exactly when its data has at most IN_CAP - 68 bytes. -/
def Obligations.DecryptInvertsEncrypt : Prop :=
  (∀ (P : Ports) (d pw : List Byte) (n : Digest), d.length < 2 ^ 32 → pw ≠ [] →
    decryptFn P (encryptWith P d pw n) pw = .ok d) ∧
  ∀ (P : Ports) (d pw : List Byte) (n : Digest) (p : Params), p.wf = true →
    ((encryptWith P d pw n).length ≤ p.inCap ↔ d.length ≤ p.inCap - 68)

/-- R129. A message whose checksum matches never gives INTEGRITY, under any password: it gives FORMAT when the recovered length field is too
large or there is no block, else the first L bytes of the frame recovered under that password. -/
def Obligations.WrongPasswordIsNotIntegrity : Prop :=
  ∀ (P : Ports) (w pw : List Byte) (k : Nat), pw ≠ [] → w.length = 64 + 32 * k → ChecksumHolds P w →
    decryptFn P w pw ≠ .error .integrity ∧
    decryptFn P w pw =
      if k = 0 ∨ 32 * k - 4 < lengthField (recoveredFrame P w pw) then .error .format
      else .ok (((recoveredFrame P w pw).drop 4).take (lengthField (recoveredFrame P w pw)))

/-- R130. If a message and a changed message of the same length both have matching checksums, the change reaches the nonce or ciphertext,
and the changed checksum field is the digest of the changed rest; with an unchanged checksum field that is a collision of Sha256. -/
def Obligations.TamperingNeedsACollision : Prop :=
  ∀ (P : Ports) (w w' : List Byte), WellFormedLength w → w'.length = w.length → w ≠ w' → verifyMessage P w = true →
    verifyMessage P w' = true →
    w.drop 32 ≠ w'.drop 32 ∧ w'.take 32 = (P.sha256 (w'.drop 32)).toList ∧
    (w.take 32 = w'.take 32 → P.sha256 (w.drop 32) = P.sha256 (w'.drop 32))

/-- ENCRYPT (R124) completes whenever its operand checks pass: OUT holds the wire message of IN under PWD and the nonce drawn, OUT_LEN = 64
+ 32n, one RNG request is recorded with its bytes, the password is zeroized, and nothing else changes. The source of the draw is the model's
choice (log entry 4). -/
def Obligations.EncryptCompletes : Prop :=
  ∀ s : State, s.params.wf = true → PasswordOperandsOk s → ∃ t, exec .encrypt s = .next t ∧
    PasswordEffect s t (wireMessage Config.ports (inputBytes s) (passwordBytes s) (nextNonce s)) ∧ OneDraw s t ∧
    t.outLen.toNat = 64 + 32 * ((4 + s.inLen.toNat + 31) / 32)

/-- DECRYPT (R125) completes whenever its operand checks pass, the message is well formed, its checksum matches and the recovered length
field fits: OUT holds the recovered data, the password is zeroized, no RNG request is made, VOK is 0, and nothing else changes. -/
def Obligations.DecryptCompletes : Prop :=
  ∀ (s : State) (k : Nat), s.params.wf = true → PasswordOperandsOk s → s.inLen.toNat = 64 + 32 * k → 1 ≤ k →
    ChecksumHolds Config.ports (inputBytes s) →
    lengthField (recoveredFrame Config.ports (inputBytes s) (passwordBytes s)) ≤ 32 * k - 4 →
    ∃ t, exec .decrypt s = .next t ∧
      PasswordEffect s t
        (((recoveredFrame Config.ports (inputBytes s) (passwordBytes s)).drop 4).take
          (lengthField (recoveredFrame Config.ports (inputBytes s) (passwordBytes s)))) ∧
      NoDraw s t

/-- R126. An ENCRYPT whose operand checks pass makes one RNG request; an ENCRYPT whose checks fail, and every other command, makes none.
Every 32-byte value is a possible draw, an earlier draw's value too: ENCRYPT from the state whose next draw is `n` puts `n` into the nonce
field of its message and into the event record. That the coming draws stand in State is the model's choice (log entry 4). -/
def Obligations.RngRequestsAreExact : Prop :=
  (∀ (i : Instr) (s : State), ∃ t, exec i s = .next t ∧
    (i = .encrypt ∧ PasswordOperandsOk s → OneDraw s t) ∧ (¬(i = .encrypt ∧ PasswordOperandsOk s) → NoDraw s t)) ∧
  ∀ (s : State) (n : Digest) (rest : List Digest), s.params.wf = true → PasswordOperandsOk s →
    ∃ t, exec .encrypt { s with rngSupply := n :: rest } = .next t ∧ t.events = s.events ++ [.rngReq n] ∧
      t.mem.readBytes (outBase + 32) 32 = n.toList

/-- R127. Every ENCRYPT, DECRYPT and DERIVE_KEY zeroizes PWD and PWD_LEN, succeeding or not; no other command touches them, and an illegal
word does not. -/
def Obligations.PasswordDoesNotPersist : Prop :=
  (∀ (i : Instr) (s : State), s.params.wf = true → ∃ t, exec i s = .next t ∧
    (usesPassword i = true → PasswordZeroized s t) ∧
    (usesPassword i = false →
      t.pwdLen = s.pwdLen ∧ ∀ j, j < s.params.pwdCap → t.mem.read (pwdBase + j) = s.mem.read (pwdBase + j))) ∧
  ∀ s : State, s.params.wf = true → ∃ t, execIllegal s = .next t ∧ t.pwdLen = s.pwdLen ∧
    ∀ j, j < s.params.pwdCap → t.mem.read (pwdBase + j) = s.mem.read (pwdBase + j)

/-- The machine's round trip (R128, R190): after an ENCRYPT, any engine whose IN holds that OUT, with the same password, decrypts it to the
data encrypted. -/
def Obligations.EncryptedMessageDecryptsOnTheMachine : Prop :=
  ∀ s t u : State, s.params.wf = true → PasswordOperandsOk s → exec .encrypt s = .next t → u.params.wf = true →
    u.inLen = t.outLen → u.inLen.toNat ≤ u.params.inCap →
    (∀ j, j < t.outLen.toNat → u.mem.read (inBase + j) = t.mem.read (outBase + j)) →
    passwordBytes u = passwordBytes s → u.pwdLen.toNat ≤ u.params.pwdCap →
    ∃ v, exec .decrypt u = .next v ∧ Succeeded v false ∧ OutHolds v (inputBytes s)

/-! ## Verify -/

/-- VERIFY (R142) completes whenever IN_LEN <= IN_CAP: VOK is 1 exactly for a well-formed message whose checksum matches, OUT is zero, and
nothing else changes. -/
def Obligations.VerifyCompletes : Prop :=
  ∀ s : State, s.params.wf = true → s.inLen.toNat ≤ s.params.inCap → ∃ t vok, exec .verify s = .next t ∧
    PlainEffect s t [] vok ∧
    (vok = true ↔ WellFormedLength (inputBytes s) ∧ ChecksumHolds Config.ports (inputBytes s))

/-- R143. VERIFY is DECRYPT's length check and checksum check together. -/
def Obligations.VerifyAgreesWithDecrypt : Prop :=
  ∀ (P : Ports) (w pw : List Byte), pw ≠ [] →
    (verifyMessage P w = false → decryptFn P w pw = .error (if messageLengthOk w then .integrity else .format)) ∧
    (verifyMessage P w = true → WellFormedLength w ∧ decryptFn P w pw ≠ .error .integrity ∧
      decryptFn P w pw = unframeBytes (recoveredFrame P w pw))

/-! ## Errors -/

/-- R159 with R151 to R155. Each command reports the first error of the table that applies, and NONE when none applies. -/
def Obligations.FirstErrorIsReported : Prop :=
  ∀ (i : Instr) (s : State), s.params.wf = true → ∃ t, exec i s = .next t ∧
    (firstError i s = none → t.errCode = 0 ∧ t.status.err = false) ∧
    (∀ e, firstError i s = some e → t.errCode = codeNumber e ∧ t.status.err = true)

/-- R158, R160. A command that raises an error leaves OUT zero and OUT_LEN 0, VOK 0, the code and ERR, the password zeroized for the
password commands only, and has no other effect: no draw, and every other register and byte as it was. -/
def Obligations.ErrorsArePrecise : Prop :=
  ∀ (i : Instr) (s : State) (e : CmdError), s.params.wf = true → firstError i s = some e → ∃ t, exec i s = .next t ∧
    Failed t e ∧ KeptByEngine s t ∧ NoDraw s t ∧
    (usesPassword i = true → PasswordZeroized s t ∧ KeptOutsideOutAndPwd s t) ∧
    (usesPassword i = false → t.pwdLen = s.pwdLen ∧ KeptOutsideOut s t)

/-- R154. The engine step of a word with OP 0x0, OP 0x8 to 0xF, or any of bits 31:4 set, completes with ILLEGAL_COMMAND: OUT zero, OUT_LEN
0, the password and every other register and byte as they were, no RNG request. -/
def Obligations.IllegalWordCompletes : Prop :=
  ∀ s : State, whoMoves s = .engine → s.status.busy = true →
    (s.cmd.toNat % 16 = 0 ∨ 8 ≤ s.cmd.toNat % 16 ∨ s.cmd.toNat / 16 ≠ 0) →
    ∃ t, step s = .next t ∧ Failed t .illegalCommand ∧ KeptByEngine { s with schedule := s.schedule.tail } t ∧
      NoDraw s t ∧ t.pwdLen = s.pwdLen ∧ KeptOutsideOut s t

/-! ## The window -/

/-- R54 with R52 and R53. An access is a bus error exactly when the rules make it one; a bus error is a fault of the host step, and any
other access gives a next state. An offset outside the window counts as a bus error by the model's choice (log entry 8). -/
def Obligations.BusErrorsAreExact : Prop :=
  ∀ (s : State) (a : Access) (rest : List HostLine), s.params.wf = true → whoMoves s = .host → s.script = .access a :: rest →
    (AccessAllowed s.params a → ∃ t, step s = .next t) ∧ (¬AccessAllowed s.params a → ∃ f, step s = .fault f)

/-- The only steps that stop the machine are host steps whose access is a bus error; no step is refused. -/
def Obligations.OnlyBusErrorsStop : Prop :=
  ∀ s : State, s.params.wf = true → (∀ r, step s ≠ .refused r) ∧
    ∀ f, step s = .fault f → whoMoves s = .host ∧
      ∃ a rest, s.script = .access a :: rest ∧ ¬AccessAllowed s.params a

/-- R55, R58. In IDLE a 4-byte write of IN stores its bytes least-significant first, a 4-byte read gives the word back, a 1-byte read each
of its bytes, and every other byte and register is as before. -/
def Obligations.InputWordsAreLittleEndian : Prop :=
  ∀ (s : State) (o : Nat) (v : Word), s.params.wf = true → s.status.busy = false → o % 4 = 0 → o + 4 ≤ s.params.inCap →
    ∃ t, memWrite32 (inBase + o) v s = .ok t ∧ t = { s with mem := t.mem } ∧
      (∀ j, j < 4 → (t.mem.read (inBase + o + j)).toNat = v.toNat / 256 ^ j % 256) ∧
      (∀ a, ¬(inBase + o ≤ a ∧ a < inBase + o + 4) → t.mem.read a = s.mem.read a) ∧
      memRead32 (inBase + o) t = .ok (v, t) ∧
      (∀ j, j < 4 → memRead8 (inBase + o + j) t = .ok (t.mem.read (inBase + o + j), t))

/-- R57. In every phase a read of PWD returns 0x00 in every byte, whatever PWD holds, and changes nothing; in IDLE a write stores its
bytes and nothing else; in BUSY it stores nothing and sets HAZ. -/
def Obligations.PasswordReadsAsZero : Prop :=
  ∀ (s : State) (o : Nat) (v : Byte) (w : Word), s.params.wf = true → o < s.params.pwdCap →
    memRead8 (pwdBase + o) s = .ok (0, s) ∧
    (o % 4 = 0 → o + 4 ≤ s.params.pwdCap → memRead32 (pwdBase + o) s = .ok (0, s)) ∧
    (∃ t, memWrite8 (pwdBase + o) v s = .ok t ∧
      (s.status.busy = false → t = { s with mem := t.mem } ∧ t.mem.read (pwdBase + o) = v ∧
        ∀ a, a ≠ pwdBase + o → t.mem.read a = s.mem.read a) ∧
      (s.status.busy = true → t = { s with status := { s.status with haz := true } })) ∧
    (o % 4 = 0 → o + 4 ≤ s.params.pwdCap → ∃ t, memWrite32 (pwdBase + o) w s = .ok t ∧
      (s.status.busy = false → t = { s with mem := t.mem } ∧
        (∀ j, j < 4 → (t.mem.read (pwdBase + o + j)).toNat = w.toNat / 256 ^ j % 256) ∧
        ∀ a, ¬(pwdBase + o ≤ a ∧ a < pwdBase + o + 4) → t.mem.read a = s.mem.read a) ∧
      (s.status.busy = true → t = { s with status := { s.status with haz := true } }))

/-- R55, R59, R185. In IDLE a read of OUT returns its byte, or the little-endian word of its four bytes, and changes nothing; while BUSY it
returns any value: the next of the supply, which that read uses up, so that the next such read has its own (the supply is the model's, log
entry 5); a write of OUT is a bus error in every phase. -/
def Obligations.OutputAccess : Prop :=
  ∀ (s : State) (o : Nat) (v : Word) (rest : List Word) (b : Byte), s.params.wf = true → o < outCap s.params →
    (s.status.busy = false → memRead8 (outBase + o) s = .ok (s.mem.read (outBase + o), s)) ∧
    (s.status.busy = true → memRead8 (outBase + o) { s with busySupply := v :: rest } =
      .ok (v.setWidth 8, { s with busySupply := rest, busyCount := s.busyCount + 1 })) ∧
    (o % 4 = 0 → o + 4 ≤ outCap s.params →
      (s.status.busy = false → ∃ w, memRead32 (outBase + o) s = .ok (w, s) ∧
        ∀ j, j < 4 → w.toNat / 256 ^ j % 256 = (s.mem.read (outBase + o + j)).toNat) ∧
      (s.status.busy = true → memRead32 (outBase + o) { s with busySupply := v :: rest } =
        .ok (v, { s with busySupply := rest, busyCount := s.busyCount + 1 }))) ∧
    (∃ f, memWrite8 (outBase + o) b s = .error f) ∧
    (∃ f, memWrite32 (outBase + o) v s = .error f)

/-- R185. While BUSY a read of OUT_LEN returns any value, the next of the model's supply (log entry 5), and uses it up; STATUS, ERR_CODE, CTRL, CMD and the
operand registers return what they hold, and a legal BUSY state shows BUSY = 1, DONE = ERR = VOK = 0 and ERR_CODE 0. -/
def Obligations.BusyReads : Prop :=
  ∀ (s : State) (v : Word) (rest : List Word), Legal s → s.status.busy = true →
    memRead32 0x018 { s with busySupply := v :: rest } = .ok (v, { s with busySupply := rest, busyCount := s.busyCount + 1 }) ∧
    memRead32 0x008 s = .ok (if s.status.haz then 0x11 else 0x01, s) ∧
    memRead32 0x00C s = .ok (0, s) ∧
    memRead32 0x000 s = .ok (if s.ctrlIE then 1 else 0, s) ∧
    memRead32 0x004 s = .ok (s.cmd, s) ∧ memRead32 0x010 s = .ok (s.pwdLen, s) ∧ memRead32 0x014 s = .ok (s.inLen, s) ∧
    memRead32 0x020 s = .ok (s.indexLo, s) ∧ memRead32 0x024 s = .ok (s.indexHi, s)

/-- R184, R186. While BUSY a write of PWD_LEN, IN_LEN, INDEX_LO, INDEX_HI, CMD, or of any byte of PWD or IN, leaves everything as it is
but sets HAZ; writes of CTRL and STATUS take effect. -/
def Obligations.BusyWritesAreHazards : Prop :=
  ∀ (s : State) (v : Word), s.params.wf = true → s.status.busy = true →
    (∀ off, off ∈ [0x010, 0x014, 0x020, 0x024, 0x004] →
      memWrite32 off v s = .ok { s with status := { s.status with haz := true } }) ∧
    (∀ off (b : Byte), Within off 1 pwdBase s.params.pwdCap ∨ Within off 1 inBase s.params.inCap →
      memWrite8 off b s = .ok { s with status := { s.status with haz := true } }) ∧
    (∀ off, off % 4 = 0 → Within off 4 pwdBase s.params.pwdCap ∨ Within off 4 inBase s.params.inCap →
      memWrite32 off v s = .ok { s with status := { s.status with haz := true } }) ∧
    memWrite32 0x000 v s = .ok { s with ctrlIE := v.getLsbD 0 } ∧
    memWrite32 0x008 v s = .ok { s with
      status := { s.status with done := s.status.done && !v.getLsbD 1, haz := s.status.haz && !v.getLsbD 4 } }

/-- R157. A CMD write while IDLE is accepted, whatever the word: it is latched whole, BUSY is set, DONE, ERR, VOK and ERR_CODE are cleared,
and nothing else changes. -/
def Obligations.CommandStart : Prop :=
  ∀ (s : State) (v : Word), s.status.busy = false →
    memWrite32 0x004 v s = .ok { s with
      cmd := v
      errCode := 0
      status := { busy := true, done := false, err := false, vok := false, haz := s.status.haz } }

/-- R23, R27, R28, R30, R56. In IDLE each operand register keeps the word written, and nothing else changes; a read gives back what was
written; CTRL keeps bit 0 alone; writes of ERR_CODE and OUT_LEN are ignored without HAZ. -/
def Obligations.IdleRegisterWrites : Prop :=
  ∀ (s : State) (v : Word), s.status.busy = false →
    memWrite32 0x010 v s = .ok { s with pwdLen := v } ∧ memWrite32 0x014 v s = .ok { s with inLen := v } ∧
    memWrite32 0x020 v s = .ok { s with indexLo := v } ∧ memWrite32 0x024 v s = .ok { s with indexHi := v } ∧
    memWrite32 0x000 v s = .ok { s with ctrlIE := v.getLsbD 0 } ∧ memWrite32 0x00C v s = .ok s ∧ memWrite32 0x018 v s = .ok s ∧
    (∀ off, off ∈ [0x010, 0x014, 0x020, 0x024] → ∃ t, memWrite32 off v s = .ok t ∧ memRead32 off t = .ok (v, t)) ∧
    ∃ t, memWrite32 0x000 v s = .ok t ∧ memRead32 0x000 t = .ok (v &&& 1, t)

/-- R25. A STATUS read in every phase returns the flags in their bits, reserved bits 0, and changes nothing; a write clears DONE by bit 1 and
HAZ by bit 4 and ignores every other bit. -/
def Obligations.StatusBits : Prop :=
  (∀ s : State, memRead32 0x008 s = .ok (statusWord s.status, s)) ∧
  (∀ st : Status, (statusWord st).toNat =
    st.busy.toNat + 2 * st.done.toNat + 4 * st.err.toNat + 8 * st.vok.toNat + 16 * st.haz.toNat) ∧
  (∀ (s : State) (v : Word), ∃ t, memWrite32 0x008 v s = .ok t ∧ t = { s with status := t.status } ∧
    t.status.busy = s.status.busy ∧ t.status.err = s.status.err ∧ t.status.vok = s.status.vok ∧
    t.status.done = (s.status.done && !v.getLsbD 1) ∧ t.status.haz = (s.status.haz && !v.getLsbD 4))

/-- R38, R162. IRQ is DONE and IE in every state; a completion raises it exactly when IE is 1; a STATUS write with bit 1, a CTRL write with
bit 0 clear and an accepted start lower it; it is 0 after reset. -/
def Obligations.InterruptOutput : Prop :=
  (∀ s : State, s.irq = (s.status.done && s.ctrlIE)) ∧
  (∀ s : State, s.status.busy = true → ∃ t, engineTurn s = .next t ∧ t.irq = s.ctrlIE) ∧
  (∀ (s : State) (v : Word), v.getLsbD 1 = true → ∃ t, memWrite32 0x008 v s = .ok t ∧ t.irq = false) ∧
  (∀ (s : State) (v : Word), v.getLsbD 0 = false → ∃ t, memWrite32 0x000 v s = .ok t ∧ t.irq = false) ∧
  (∀ (s : State) (v : Word), s.status.busy = false → ∃ t, memWrite32 0x004 v s = .ok t ∧ t.irq = false) ∧
  State.reset.irq = false

/-- R60. A read changes no register, no buffer, no flag and no record of RNG requests: only the response, and the supply of busy values,
both the model's (log entries 3 and 5). -/
def Obligations.ReadsHaveNoSideEffect : Prop :=
  ∀ (s t : State) (off : Nat) (a : Access), (a = .read8 off ∨ a = .read32 off) → hostAccess a s = .ok t →
    t = { s with responses := t.responses, busySupply := t.busySupply, busyCount := t.busyCount } ∧
    t.responses.length = s.responses.length + 1

/-- R188. OUT, OUT_LEN, ERR_CODE and VOK keep a command's results through every host access but an accepted start, and a start keeps OUT and
OUT_LEN. -/
def Obligations.ResultsLastUntilTheNextStart : Prop :=
  ∀ (s t : State) (a : Access), s.params.wf = true → hostAccess a s = .ok t →
    t.outLen = s.outLen ∧ (∀ j, j < outCap s.params → t.mem.read (outBase + j) = s.mem.read (outBase + j)) ∧
    ((∀ v, a = .write32 0x004 v → s.status.busy = true) → t.errCode = s.errCode ∧ t.status.vok = s.status.vok)

/-! ## Whole-machine statements -/

/-- R57, R73, R166. The host cannot learn a password byte: two states that differ only in PWD stay so, with the same responses, the same
faults and the same results, through every step but the engine step of a password command. -/
def Obligations.PasswordBytesStaySecret : Prop :=
  ∀ s s' : State, s.params.wf = true → AgreeExceptPassword s s' →
    (whoMoves s = .engine → s.status.busy = true → ∀ i, decode s.cmd = .ok i → usesPassword i = false) →
    SameOutcomeExceptPassword (step s) (step s')

/-- R80, R195. A WAIT ends: with n host turns scheduled before the schedule runs out, it reads a BUSY engine n times, the engine completes,
and the next read lets the host go on. That an exhausted schedule moves a BUSY engine is the model's form of weak fairness (log entry 1). -/
def Obligations.WaitEnds : Prop :=
  ∀ (s : State) (n : Nat) (rest : List HostLine), s.status.busy = true → s.script = .wait :: rest →
    s.schedule = List.replicate n Turn.host →
    ∃ t, Sys2Proof.core.run (n + 2) s = .next t ∧ t.script = rest ∧ t.status.busy = false ∧ t.status.done = true ∧
      t.responses.length = s.responses.length + n + 1

/-! ## Further statements about the window -/

/-- R55, R58. In every phase a read of IN returns its byte, or the little-endian word of its four bytes, and changes nothing; in IDLE a write
stores its bytes and nothing else; in BUSY it stores nothing and sets HAZ. -/
def Obligations.InputAccess : Prop :=
  ∀ (s : State) (o : Nat) (v : Byte) (w : Word), s.params.wf = true → o < s.params.inCap →
    memRead8 (inBase + o) s = .ok (s.mem.read (inBase + o), s) ∧
    (∃ t, memWrite8 (inBase + o) v s = .ok t ∧
      (s.status.busy = false → t = { s with mem := t.mem } ∧ t.mem.read (inBase + o) = v ∧
        ∀ a, a ≠ inBase + o → t.mem.read a = s.mem.read a) ∧
      (s.status.busy = true → t = { s with status := { s.status with haz := true } })) ∧
    (o % 4 = 0 → o + 4 ≤ s.params.inCap →
      (∃ x, memRead32 (inBase + o) s = .ok (x, s) ∧
        ∀ j, j < 4 → x.toNat / 256 ^ j % 256 = (s.mem.read (inBase + o + j)).toNat) ∧
      ∃ t, memWrite32 (inBase + o) w s = .ok t ∧
        (s.status.busy = false → t = { s with mem := t.mem } ∧
          (∀ j, j < 4 → (t.mem.read (inBase + o + j)).toNat = w.toNat / 256 ^ j % 256) ∧
          ∀ a, ¬(inBase + o ≤ a ∧ a < inBase + o + 4) → t.mem.read a = s.mem.read a) ∧
        (s.status.busy = true → t = { s with status := { s.status with haz := true } }))

/-- R24, R26, R29, R56. In every phase a read of CMD returns the latched word and a read of ERR_CODE the code, bits 31:4 being 0; in IDLE a
read of OUT_LEN returns the count; the read changes nothing. In every phase a write of ERR_CODE or OUT_LEN is ignored, without HAZ. -/
def Obligations.ResultRegisters : Prop :=
  ∀ (s : State) (v : Word),
    memRead32 0x004 s = .ok (s.cmd, s) ∧
    (∃ x, memRead32 0x00C s = .ok (x, s) ∧ x.toNat = s.errCode.toNat) ∧
    (s.status.busy = false → memRead32 0x018 s = .ok (s.outLen, s)) ∧
    memWrite32 0x00C v s = .ok s ∧ memWrite32 0x018 v s = .ok s
end

