-- ==== Sys2Proof/Laws/Memory.lean ====
section
/-! SUPPORT. The laws of the byte store: what reads give after each write, and that every operation keeps the canonical form. -/

namespace Sys2Proof.Machine

/-! ### Reading -/

@[simp] theorem read_nil (a : Nat) : Memory.read [] a = 0 := rfl

theorem read_cons (c : Host.Cell) (m : Memory) (a : Nat) :
    Memory.read (c :: m) a = if a = c.1 then c.2 else Memory.read m a := by
  obtain ⟨k, v⟩ := c
  by_cases h : a = k
  · subst h; simp [Memory.read]
  · have : (a == k) = false := by simpa using h
    simp [Memory.read, List.lookup_cons, this, h]

/-- A byte that no entry lists reads 0x00. -/
theorem read_eq_zero_of_forall_ne {m : Memory} {a : Nat} (h : ∀ c ∈ m, c.1 ≠ a) : m.read a = 0 := by
  induction m with
  | nil => rfl
  | cons c m ih =>
    rw [read_cons, if_neg (fun e => h c (by simp) e.symm)]
    exact ih fun d hd => h d (by simp [hd])

theorem read_append (m m' : Memory) (a : Nat) :
    Memory.read (m ++ m') a = if ∃ c ∈ m, c.1 = a then m.read a else m'.read a := by
  induction m with
  | nil => simp
  | cons c m ih =>
    rw [List.cons_append, read_cons, read_cons, ih]
    by_cases h : a = c.1
    · subst h; simp
    · have : ¬ c.1 = a := fun e => h e.symm
      simp [h, this]

/-- Dropping entries by their offset alone drops exactly those bytes. -/
theorem read_filter (m : Memory) (p : Nat → Bool) (a : Nat) :
    Memory.read (m.filter fun c => p c.1) a = if p a then m.read a else 0 := by
  induction m with
  | nil => simp
  | cons c m ih =>
    by_cases hc : p c.1
    · rw [List.filter_cons_of_pos (by simpa using hc), read_cons, read_cons, ih]
      by_cases h : a = c.1
      · subst h; simp [hc]
      · simp [h]
    · rw [List.filter_cons_of_neg (by simpa using hc), read_cons, ih]
      by_cases h : a = c.1
      · subst h; simp [hc]
      · simp [h]

theorem mem_ofBytes {bs : List Byte} {a : Nat} {c : Host.Cell} (h : c ∈ Memory.ofBytes a bs) :
    a ≤ c.1 ∧ c.1 < a + bs.length ∧ c.2 ≠ 0 := by
  induction bs generalizing a with
  | nil => simp [Memory.ofBytes] at h
  | cons b bs ih =>
    rw [Memory.ofBytes] at h
    split at h
    · obtain ⟨h1, h2, h3⟩ := ih h
      exact ⟨by omega, by simp only [List.length_cons]; omega, h3⟩
    · rcases List.mem_cons.1 h with rfl | h
      · exact ⟨Nat.le_refl _, by simp, by assumption⟩
      · obtain ⟨h1, h2, h3⟩ := ih h
        exact ⟨by omega, by simp only [List.length_cons]; omega, h3⟩

/-- The store built from bytes reads them back, and 0x00 everywhere else. -/
theorem read_ofBytes (bs : List Byte) (a x : Nat) :
    (Memory.ofBytes a bs).read x = if a ≤ x then bs.getD (x - a) 0 else 0 := by
  induction bs generalizing a with
  | nil => simp [Memory.ofBytes]
  | cons b bs ih =>
    have step : ∀ m : Memory, m = (if b = 0 then Memory.ofBytes (a + 1) bs else (a, b) :: Memory.ofBytes (a + 1) bs) →
        m.read x = if a = x then b else (Memory.ofBytes (a + 1) bs).read x := by
      rintro _ rfl
      by_cases hb : b = 0
      · rw [if_pos hb]
        split
        · subst_vars
          exact read_eq_zero_of_forall_ne fun c hc => by have := mem_ofBytes hc; omega
        · rfl
      · rw [if_neg hb, read_cons]
        simp only [eq_comm]
    rw [step _ (by rw [Memory.ofBytes]), ih]
    by_cases h : a = x
    · subst h; simp
    · by_cases h2 : a + 1 ≤ x
      · have h3 : a ≤ x := by omega
        have h4 : x - a = (x - (a + 1)) + 1 := by omega
        simp [h, h2, h3, h4]
      · have h3 : ¬ a ≤ x := by omega
        simp [h, h2, h3]

/-- What a store of bytes leaves at every offset. -/
theorem read_store (m : Memory) (a : Nat) (bs : List Byte) (x : Nat) :
    (m.store a bs).read x = if a ≤ x ∧ x < a + bs.length then bs.getD (x - a) 0 else m.read x := by
  unfold Memory.store
  have hf1 := read_filter m (fun k => decide (k < a)) x
  have hf2 := read_filter m (fun k => decide (a + bs.length ≤ k)) x
  rw [List.append_assoc, read_append, read_append, hf1, hf2, read_ofBytes]
  by_cases h1 : x < a
  · have n1 : ¬ a ≤ x := by omega
    have n2 : ¬ a + bs.length ≤ x := by omega
    have n3 : ¬ ∃ c ∈ Memory.ofBytes a bs, c.1 = x := by
      rintro ⟨c, hc, rfl⟩; have := mem_ofBytes hc; omega
    by_cases e : ∃ c ∈ m.filter (fun c => decide (c.1 < a)), c.1 = x
    · rw [if_pos e]; simp [h1, n1]
    · rw [if_neg e, if_neg n3]
      simp only [n1, n2, decide_false, Bool.false_eq_true, if_false, false_and]
      symm
      apply read_eq_zero_of_forall_ne
      intro c hc hx
      exact e ⟨c, List.mem_filter.2 ⟨hc, by simpa [hx] using h1⟩, hx⟩
  · have e : ¬ ∃ c ∈ m.filter (fun c => decide (c.1 < a)), c.1 = x := by
      rintro ⟨c, hc, rfl⟩
      exact h1 (by simpa using (List.mem_filter.1 hc).2)
    rw [if_neg e]
    have g1 : a ≤ x := by omega
    by_cases h2 : x < a + bs.length
    · have n2 : ¬ a + bs.length ≤ x := by omega
      simp only [g1, h2, n2, decide_false, Bool.false_eq_true, if_false, and_self, if_true]
      split
      · rfl
      · rename_i hne
        by_contra hc
        have := read_eq_zero_of_forall_ne (m := Memory.ofBytes a bs) (a := x) fun c hc hx => hne ⟨c, hc, hx⟩
        rw [read_ofBytes, if_pos g1] at this
        exact hc this.symm
    · have n3 : ¬ ∃ c ∈ Memory.ofBytes a bs, c.1 = x := by
        rintro ⟨c, hc, rfl⟩; have := mem_ofBytes hc; omega
      have g2 : a + bs.length ≤ x := by omega
      rw [if_neg n3]
      simp [g2, h2]

/-- What a clear leaves at every offset. -/
theorem read_clear (m : Memory) (a n x : Nat) :
    (m.clear a n).read x = if a ≤ x ∧ x < a + n then 0 else m.read x := by
  have := read_filter m (fun k => decide (k < a) || decide (a + n ≤ k)) x
  unfold Memory.clear
  rw [this]
  by_cases h : a ≤ x ∧ x < a + n
  · have h1 : ¬ x < a := by omega
    have h2 : ¬ a + n ≤ x := by omega
    simp [h1, h2, h]
  · have : x < a ∨ a + n ≤ x := by omega
    simp [h, this]

@[simp] theorem length_readBytes (m : Memory) (a n : Nat) : (m.readBytes a n).length = n := by simp [Memory.readBytes]

@[simp] theorem getElem_readBytes (m : Memory) (a n i : Nat) (h : i < (m.readBytes a n).length) :
    (m.readBytes a n)[i] = m.read (a + i) := by simp [Memory.readBytes]

theorem getD_readBytes (m : Memory) (a n i : Nat) (h : i < n) : (m.readBytes a n).getD i 0 = m.read (a + i) := by
  simp [Memory.readBytes, List.getD_eq_getElem?_getD, h]

/-- Two stores that agree on a range read the same bytes there. -/
theorem readBytes_congr {m m' : Memory} {a n : Nat} (h : ∀ x, a ≤ x → x < a + n → m.read x = m'.read x) :
    m.readBytes a n = m'.readBytes a n := by
  unfold Memory.readBytes
  apply List.map_congr_left
  intro i hi
  exact h _ (by omega) (by have := List.mem_range.1 hi; omega)

/-- The bytes stored read back whole. -/
theorem readBytes_store (m : Memory) (a : Nat) (bs : List Byte) : (m.store a bs).readBytes a bs.length = bs := by
  apply List.ext_getElem (by simp)
  intro i h1 h2
  rw [getElem_readBytes, read_store, if_pos ⟨by omega, by omega⟩]
  simp [List.getD_eq_getElem?_getD, h2]

/-! ### The canonical form -/

theorem wf_iff (m : Memory) : m.wf = true ↔ m.Pairwise (fun c d => c.1 < d.1) ∧ ∀ c ∈ m, c.2 ≠ 0 := by
  simp [Memory.wf, List.all_eq_true]

@[simp] theorem wf_nil : Memory.wf [] = true := rfl

theorem wf_filter {m : Memory} (p : Host.Cell → Bool) (h : m.wf = true) : Memory.wf (m.filter p) = true := by
  rw [wf_iff] at *
  exact ⟨h.1.filter _, fun c hc => h.2 c (List.mem_filter.1 hc).1⟩

theorem wf_ofBytes (a : Nat) (bs : List Byte) : (Memory.ofBytes a bs).wf = true := by
  rw [wf_iff]
  refine ⟨?_, fun c hc => (mem_ofBytes hc).2.2⟩
  induction bs generalizing a with
  | nil => simp [Memory.ofBytes]
  | cons b bs ih =>
    rw [Memory.ofBytes]
    split
    · exact ih _
    · exact List.pairwise_cons.2 ⟨fun c hc => by have := mem_ofBytes hc; omega, ih _⟩

/-- A store keeps the canonical form. -/
theorem wf_store {m : Memory} (a : Nat) (bs : List Byte) (h : m.wf = true) : (m.store a bs).wf = true := by
  have h1 := (wf_iff _).1 (wf_filter (fun c => decide (c.1 < a)) h)
  have h2 := (wf_iff _).1 (wf_ofBytes a bs)
  have h3 := (wf_iff _).1 (wf_filter (fun c => decide (a + bs.length ≤ c.1)) h)
  rw [wf_iff, Memory.store]
  constructor
  · refine List.pairwise_append.2 ⟨List.pairwise_append.2 ⟨h1.1, h2.1, ?_⟩, h3.1, ?_⟩
    · intro c hc d hd
      have := mem_ofBytes hd
      have : c.1 < a := by simpa using (List.mem_filter.1 hc).2
      omega
    · intro c hc d hd
      have : a + bs.length ≤ d.1 := by simpa using (List.mem_filter.1 hd).2
      rcases List.mem_append.1 hc with hc | hc
      · have : c.1 < a := by simpa using (List.mem_filter.1 hc).2
        omega
      · have := mem_ofBytes hc
        omega
  · intro c hc
    rcases List.mem_append.1 hc with hc | hc
    · rcases List.mem_append.1 hc with hc | hc
      · exact h1.2 c hc
      · exact h2.2 c hc
    · exact h3.2 c hc

/-- A clear keeps the canonical form. -/
theorem wf_clear {m : Memory} (a n : Nat) (h : m.wf = true) : (m.clear a n).wf = true := wf_filter _ h

/-- An entry of a canonical store is the byte read at its offset. -/
theorem read_of_mem {m : Memory} (h : m.wf = true) {c : Host.Cell} (hc : c ∈ m) : m.read c.1 = c.2 := by
  induction m with
  | nil => simp at hc
  | cons d m ih =>
    obtain ⟨hp, hz⟩ := (wf_iff _).1 h
    obtain ⟨hd, hp'⟩ := List.pairwise_cons.1 hp
    rw [read_cons]
    rcases List.mem_cons.1 hc with rfl | hc
    · simp
    · have : ¬ c.1 = d.1 := by have := hd c hc; omega
      rw [if_neg this]
      exact ih ((wf_iff _).2 ⟨hp', fun e he => hz e (by simp [he])⟩) hc

/-- In a canonical store an offset is listed exactly when its byte is not 0x00. -/
theorem exists_mem_iff {m : Memory} (h : m.wf = true) (a : Nat) : (∃ c ∈ m, c.1 = a) ↔ m.read a ≠ 0 := by
  constructor
  · rintro ⟨c, hc, rfl⟩
    rw [read_of_mem h hc]
    exact ((wf_iff _).1 h).2 c hc
  · intro hr
    by_contra hn
    exact hr (read_eq_zero_of_forall_ne fun c hc hx => hn ⟨c, hc, hx⟩)

/-- Canonical stores that read the same everywhere are the same list. -/
theorem wf_ext {m m' : Memory} (h : m.wf = true) (h' : m'.wf = true) (hr : ∀ a, m.read a = m'.read a) : m = m' := by
  have hp := ((wf_iff _).1 h).1
  have hp' := ((wf_iff _).1 h').1
  have hm : ∀ c, c ∈ m ↔ c ∈ m' := by
    have key : ∀ {n n' : Memory}, n.wf = true → n'.wf = true → (∀ a, n.read a = n'.read a) → ∀ c ∈ n, c ∈ n' := by
      intro n n' hn hn' he c hc
      have hv := read_of_mem hn hc
      have hz : n'.read c.1 ≠ 0 := by
        rw [← he, hv]; exact ((wf_iff _).1 hn).2 c hc
      obtain ⟨d, hd, hdc⟩ := (exists_mem_iff hn' c.1).2 hz
      have hv' := read_of_mem hn' hd
      rw [hdc, ← he, hv] at hv'
      have : d = c := Prod.ext hdc hv'.symm
      exact this ▸ hd
    exact fun c => ⟨key h h' hr c, key h' h (fun a => (hr a).symm) c⟩
  have asym : ∀ c d : Host.Cell, c.1 < d.1 → ¬ d.1 < c.1 := fun c d => by omega
  refine List.Perm.eq_of_pairwise (le := fun c d : Host.Cell => c.1 < d.1) ?_ hp hp' ?_
  · intro c d _ _ h1 h2; omega
  · rw [List.perm_ext_iff_of_nodup]
    · exact hm
    · exact hp.imp fun {c d} hlt he => by subst he; omega
    · exact hp'.imp fun {c d} hlt he => by subst he; omega

end Sys2Proof.Machine
end

