-- ==== Sys2Proof/Laws/State.lean ====
section
/-! SUPPORT. One lemma per field per update of State: what each named update leaves in each field. -/

namespace Sys2Proof.Machine

/-! ### clearOut -/

@[simp] theorem clearOut_params (s : State) : (clearOut s).params = s.params := rfl
@[simp] theorem clearOut_ctrlIE (s : State) : (clearOut s).ctrlIE = s.ctrlIE := rfl
@[simp] theorem clearOut_cmd (s : State) : (clearOut s).cmd = s.cmd := rfl
@[simp] theorem clearOut_status (s : State) : (clearOut s).status = s.status := rfl
@[simp] theorem clearOut_errCode (s : State) : (clearOut s).errCode = s.errCode := rfl
@[simp] theorem clearOut_pwdLen (s : State) : (clearOut s).pwdLen = s.pwdLen := rfl
@[simp] theorem clearOut_inLen (s : State) : (clearOut s).inLen = s.inLen := rfl
@[simp] theorem clearOut_outLen (s : State) : (clearOut s).outLen = s.outLen := rfl
@[simp] theorem clearOut_indexLo (s : State) : (clearOut s).indexLo = s.indexLo := rfl
@[simp] theorem clearOut_indexHi (s : State) : (clearOut s).indexHi = s.indexHi := rfl
@[simp] theorem clearOut_mem (s : State) : (clearOut s).mem = s.mem.clear outBase (outCap s.params) := rfl
@[simp] theorem clearOut_dp (s : State) : (clearOut s).dp = s.dp := rfl
@[simp] theorem clearOut_events (s : State) : (clearOut s).events = s.events := rfl
@[simp] theorem clearOut_script (s : State) : (clearOut s).script = s.script := rfl
@[simp] theorem clearOut_schedule (s : State) : (clearOut s).schedule = s.schedule := rfl
@[simp] theorem clearOut_responses (s : State) : (clearOut s).responses = s.responses := rfl
@[simp] theorem clearOut_rngSupply (s : State) : (clearOut s).rngSupply = s.rngSupply := rfl
@[simp] theorem clearOut_rngCount (s : State) : (clearOut s).rngCount = s.rngCount := rfl
@[simp] theorem clearOut_busySupply (s : State) : (clearOut s).busySupply = s.busySupply := rfl
@[simp] theorem clearOut_busyCount (s : State) : (clearOut s).busyCount = s.busyCount := rfl

/-! ### clearPassword -/

@[simp] theorem clearPassword_params (s : State) : (clearPassword s).params = s.params := rfl
@[simp] theorem clearPassword_ctrlIE (s : State) : (clearPassword s).ctrlIE = s.ctrlIE := rfl
@[simp] theorem clearPassword_cmd (s : State) : (clearPassword s).cmd = s.cmd := rfl
@[simp] theorem clearPassword_status (s : State) : (clearPassword s).status = s.status := rfl
@[simp] theorem clearPassword_errCode (s : State) : (clearPassword s).errCode = s.errCode := rfl
@[simp] theorem clearPassword_pwdLen (s : State) : (clearPassword s).pwdLen = 0 := rfl
@[simp] theorem clearPassword_inLen (s : State) : (clearPassword s).inLen = s.inLen := rfl
@[simp] theorem clearPassword_outLen (s : State) : (clearPassword s).outLen = s.outLen := rfl
@[simp] theorem clearPassword_indexLo (s : State) : (clearPassword s).indexLo = s.indexLo := rfl
@[simp] theorem clearPassword_indexHi (s : State) : (clearPassword s).indexHi = s.indexHi := rfl
@[simp] theorem clearPassword_mem (s : State) : (clearPassword s).mem = s.mem.clear pwdBase s.params.pwdCap := rfl
@[simp] theorem clearPassword_dp (s : State) : (clearPassword s).dp = s.dp := rfl
@[simp] theorem clearPassword_events (s : State) : (clearPassword s).events = s.events := rfl
@[simp] theorem clearPassword_script (s : State) : (clearPassword s).script = s.script := rfl
@[simp] theorem clearPassword_schedule (s : State) : (clearPassword s).schedule = s.schedule := rfl
@[simp] theorem clearPassword_responses (s : State) : (clearPassword s).responses = s.responses := rfl
@[simp] theorem clearPassword_rngSupply (s : State) : (clearPassword s).rngSupply = s.rngSupply := rfl
@[simp] theorem clearPassword_rngCount (s : State) : (clearPassword s).rngCount = s.rngCount := rfl
@[simp] theorem clearPassword_busySupply (s : State) : (clearPassword s).busySupply = s.busySupply := rfl
@[simp] theorem clearPassword_busyCount (s : State) : (clearPassword s).busyCount = s.busyCount := rfl

/-! ### writeResult -/

@[simp] theorem writeResult_params (bs : List Byte) (s : State) : (writeResult bs s).params = s.params := rfl
@[simp] theorem writeResult_ctrlIE (bs : List Byte) (s : State) : (writeResult bs s).ctrlIE = s.ctrlIE := rfl
@[simp] theorem writeResult_cmd (bs : List Byte) (s : State) : (writeResult bs s).cmd = s.cmd := rfl
@[simp] theorem writeResult_status (bs : List Byte) (s : State) : (writeResult bs s).status = { s.status with vok := false } := rfl
@[simp] theorem writeResult_errCode (bs : List Byte) (s : State) : (writeResult bs s).errCode = s.errCode := rfl
@[simp] theorem writeResult_pwdLen (bs : List Byte) (s : State) : (writeResult bs s).pwdLen = s.pwdLen := rfl
@[simp] theorem writeResult_inLen (bs : List Byte) (s : State) : (writeResult bs s).inLen = s.inLen := rfl
@[simp] theorem writeResult_outLen (bs : List Byte) (s : State) : (writeResult bs s).outLen = BitVec.ofNat 32 bs.length := rfl
@[simp] theorem writeResult_indexLo (bs : List Byte) (s : State) : (writeResult bs s).indexLo = s.indexLo := rfl
@[simp] theorem writeResult_indexHi (bs : List Byte) (s : State) : (writeResult bs s).indexHi = s.indexHi := rfl
@[simp] theorem writeResult_mem (bs : List Byte) (s : State) : (writeResult bs s).mem = s.mem.store outBase bs := rfl
@[simp] theorem writeResult_dp (bs : List Byte) (s : State) : (writeResult bs s).dp = s.dp := rfl
@[simp] theorem writeResult_events (bs : List Byte) (s : State) : (writeResult bs s).events = s.events := rfl
@[simp] theorem writeResult_script (bs : List Byte) (s : State) : (writeResult bs s).script = s.script := rfl
@[simp] theorem writeResult_schedule (bs : List Byte) (s : State) : (writeResult bs s).schedule = s.schedule := rfl
@[simp] theorem writeResult_responses (bs : List Byte) (s : State) : (writeResult bs s).responses = s.responses := rfl
@[simp] theorem writeResult_rngSupply (bs : List Byte) (s : State) : (writeResult bs s).rngSupply = s.rngSupply := rfl
@[simp] theorem writeResult_rngCount (bs : List Byte) (s : State) : (writeResult bs s).rngCount = s.rngCount := rfl
@[simp] theorem writeResult_busySupply (bs : List Byte) (s : State) : (writeResult bs s).busySupply = s.busySupply := rfl
@[simp] theorem writeResult_busyCount (bs : List Byte) (s : State) : (writeResult bs s).busyCount = s.busyCount := rfl

/-! ### startCommand -/

@[simp] theorem startCommand_params (v : Word) (s : State) : (startCommand v s).params = s.params := rfl
@[simp] theorem startCommand_ctrlIE (v : Word) (s : State) : (startCommand v s).ctrlIE = s.ctrlIE := rfl
@[simp] theorem startCommand_cmd (v : Word) (s : State) : (startCommand v s).cmd = v := rfl
@[simp] theorem startCommand_status (v : Word) (s : State) : (startCommand v s).status = statusAtStart s.status := rfl
@[simp] theorem startCommand_errCode (v : Word) (s : State) : (startCommand v s).errCode = noError := rfl
@[simp] theorem startCommand_pwdLen (v : Word) (s : State) : (startCommand v s).pwdLen = s.pwdLen := rfl
@[simp] theorem startCommand_inLen (v : Word) (s : State) : (startCommand v s).inLen = s.inLen := rfl
@[simp] theorem startCommand_outLen (v : Word) (s : State) : (startCommand v s).outLen = s.outLen := rfl
@[simp] theorem startCommand_indexLo (v : Word) (s : State) : (startCommand v s).indexLo = s.indexLo := rfl
@[simp] theorem startCommand_indexHi (v : Word) (s : State) : (startCommand v s).indexHi = s.indexHi := rfl
@[simp] theorem startCommand_mem (v : Word) (s : State) : (startCommand v s).mem = s.mem := rfl
@[simp] theorem startCommand_dp (v : Word) (s : State) : (startCommand v s).dp = s.dp := rfl
@[simp] theorem startCommand_events (v : Word) (s : State) : (startCommand v s).events = s.events := rfl
@[simp] theorem startCommand_script (v : Word) (s : State) : (startCommand v s).script = s.script := rfl
@[simp] theorem startCommand_schedule (v : Word) (s : State) : (startCommand v s).schedule = s.schedule := rfl
@[simp] theorem startCommand_responses (v : Word) (s : State) : (startCommand v s).responses = s.responses := rfl
@[simp] theorem startCommand_rngSupply (v : Word) (s : State) : (startCommand v s).rngSupply = s.rngSupply := rfl
@[simp] theorem startCommand_rngCount (v : Word) (s : State) : (startCommand v s).rngCount = s.rngCount := rfl
@[simp] theorem startCommand_busySupply (v : Word) (s : State) : (startCommand v s).busySupply = s.busySupply := rfl
@[simp] theorem startCommand_busyCount (v : Word) (s : State) : (startCommand v s).busyCount = s.busyCount := rfl

/-! ### raiseError -/

@[simp] theorem raiseError_params (e : CmdError) (s : State) : (raiseError e s).params = s.params := rfl
@[simp] theorem raiseError_ctrlIE (e : CmdError) (s : State) : (raiseError e s).ctrlIE = s.ctrlIE := rfl
@[simp] theorem raiseError_cmd (e : CmdError) (s : State) : (raiseError e s).cmd = s.cmd := rfl
@[simp] theorem raiseError_status (e : CmdError) (s : State) : (raiseError e s).status = statusAtError s.status := rfl
@[simp] theorem raiseError_errCode (e : CmdError) (s : State) : (raiseError e s).errCode = errorCode e := rfl
@[simp] theorem raiseError_pwdLen (e : CmdError) (s : State) : (raiseError e s).pwdLen = s.pwdLen := rfl
@[simp] theorem raiseError_inLen (e : CmdError) (s : State) : (raiseError e s).inLen = s.inLen := rfl
@[simp] theorem raiseError_outLen (e : CmdError) (s : State) : (raiseError e s).outLen = 0 := rfl
@[simp] theorem raiseError_indexLo (e : CmdError) (s : State) : (raiseError e s).indexLo = s.indexLo := rfl
@[simp] theorem raiseError_indexHi (e : CmdError) (s : State) : (raiseError e s).indexHi = s.indexHi := rfl
@[simp] theorem raiseError_mem (e : CmdError) (s : State) : (raiseError e s).mem = s.mem.clear outBase (outCap s.params) := rfl
@[simp] theorem raiseError_dp (e : CmdError) (s : State) : (raiseError e s).dp = s.dp := rfl
@[simp] theorem raiseError_events (e : CmdError) (s : State) : (raiseError e s).events = s.events := rfl
@[simp] theorem raiseError_script (e : CmdError) (s : State) : (raiseError e s).script = s.script := rfl
@[simp] theorem raiseError_schedule (e : CmdError) (s : State) : (raiseError e s).schedule = s.schedule := rfl
@[simp] theorem raiseError_responses (e : CmdError) (s : State) : (raiseError e s).responses = s.responses := rfl
@[simp] theorem raiseError_rngSupply (e : CmdError) (s : State) : (raiseError e s).rngSupply = s.rngSupply := rfl
@[simp] theorem raiseError_rngCount (e : CmdError) (s : State) : (raiseError e s).rngCount = s.rngCount := rfl
@[simp] theorem raiseError_busySupply (e : CmdError) (s : State) : (raiseError e s).busySupply = s.busySupply := rfl
@[simp] theorem raiseError_busyCount (e : CmdError) (s : State) : (raiseError e s).busyCount = s.busyCount := rfl

/-! ### completeOk -/

@[simp] theorem completeOk_params (s : State) : (completeOk s).params = s.params := rfl
@[simp] theorem completeOk_ctrlIE (s : State) : (completeOk s).ctrlIE = s.ctrlIE := rfl
@[simp] theorem completeOk_cmd (s : State) : (completeOk s).cmd = s.cmd := rfl
@[simp] theorem completeOk_status (s : State) : (completeOk s).status = statusAtSuccess s.status := rfl
@[simp] theorem completeOk_errCode (s : State) : (completeOk s).errCode = noError := rfl
@[simp] theorem completeOk_pwdLen (s : State) : (completeOk s).pwdLen = s.pwdLen := rfl
@[simp] theorem completeOk_inLen (s : State) : (completeOk s).inLen = s.inLen := rfl
@[simp] theorem completeOk_outLen (s : State) : (completeOk s).outLen = s.outLen := rfl
@[simp] theorem completeOk_indexLo (s : State) : (completeOk s).indexLo = s.indexLo := rfl
@[simp] theorem completeOk_indexHi (s : State) : (completeOk s).indexHi = s.indexHi := rfl
@[simp] theorem completeOk_mem (s : State) : (completeOk s).mem = s.mem := rfl
@[simp] theorem completeOk_dp (s : State) : (completeOk s).dp = s.dp := rfl
@[simp] theorem completeOk_events (s : State) : (completeOk s).events = s.events := rfl
@[simp] theorem completeOk_script (s : State) : (completeOk s).script = s.script := rfl
@[simp] theorem completeOk_schedule (s : State) : (completeOk s).schedule = s.schedule := rfl
@[simp] theorem completeOk_responses (s : State) : (completeOk s).responses = s.responses := rfl
@[simp] theorem completeOk_rngSupply (s : State) : (completeOk s).rngSupply = s.rngSupply := rfl
@[simp] theorem completeOk_rngCount (s : State) : (completeOk s).rngCount = s.rngCount := rfl
@[simp] theorem completeOk_busySupply (s : State) : (completeOk s).busySupply = s.busySupply := rfl
@[simp] theorem completeOk_busyCount (s : State) : (completeOk s).busyCount = s.busyCount := rfl

/-! ### writeStatus -/

@[simp] theorem writeStatus_params (v : Word) (s : State) : (writeStatus v s).params = s.params := rfl
@[simp] theorem writeStatus_ctrlIE (v : Word) (s : State) : (writeStatus v s).ctrlIE = s.ctrlIE := rfl
@[simp] theorem writeStatus_cmd (v : Word) (s : State) : (writeStatus v s).cmd = s.cmd := rfl
@[simp] theorem writeStatus_status (v : Word) (s : State) : (writeStatus v s).status = statusAfterWrite v s.status := rfl
@[simp] theorem writeStatus_errCode (v : Word) (s : State) : (writeStatus v s).errCode = s.errCode := rfl
@[simp] theorem writeStatus_pwdLen (v : Word) (s : State) : (writeStatus v s).pwdLen = s.pwdLen := rfl
@[simp] theorem writeStatus_inLen (v : Word) (s : State) : (writeStatus v s).inLen = s.inLen := rfl
@[simp] theorem writeStatus_outLen (v : Word) (s : State) : (writeStatus v s).outLen = s.outLen := rfl
@[simp] theorem writeStatus_indexLo (v : Word) (s : State) : (writeStatus v s).indexLo = s.indexLo := rfl
@[simp] theorem writeStatus_indexHi (v : Word) (s : State) : (writeStatus v s).indexHi = s.indexHi := rfl
@[simp] theorem writeStatus_mem (v : Word) (s : State) : (writeStatus v s).mem = s.mem := rfl
@[simp] theorem writeStatus_dp (v : Word) (s : State) : (writeStatus v s).dp = s.dp := rfl
@[simp] theorem writeStatus_events (v : Word) (s : State) : (writeStatus v s).events = s.events := rfl
@[simp] theorem writeStatus_script (v : Word) (s : State) : (writeStatus v s).script = s.script := rfl
@[simp] theorem writeStatus_schedule (v : Word) (s : State) : (writeStatus v s).schedule = s.schedule := rfl
@[simp] theorem writeStatus_responses (v : Word) (s : State) : (writeStatus v s).responses = s.responses := rfl
@[simp] theorem writeStatus_rngSupply (v : Word) (s : State) : (writeStatus v s).rngSupply = s.rngSupply := rfl
@[simp] theorem writeStatus_rngCount (v : Word) (s : State) : (writeStatus v s).rngCount = s.rngCount := rfl
@[simp] theorem writeStatus_busySupply (v : Word) (s : State) : (writeStatus v s).busySupply = s.busySupply := rfl
@[simp] theorem writeStatus_busyCount (v : Word) (s : State) : (writeStatus v s).busyCount = s.busyCount := rfl

/-! ### hazard -/

@[simp] theorem hazard_params (s : State) : (hazard s).params = s.params := rfl
@[simp] theorem hazard_ctrlIE (s : State) : (hazard s).ctrlIE = s.ctrlIE := rfl
@[simp] theorem hazard_cmd (s : State) : (hazard s).cmd = s.cmd := rfl
@[simp] theorem hazard_status (s : State) : (hazard s).status = statusAtHazard s.status := rfl
@[simp] theorem hazard_errCode (s : State) : (hazard s).errCode = s.errCode := rfl
@[simp] theorem hazard_pwdLen (s : State) : (hazard s).pwdLen = s.pwdLen := rfl
@[simp] theorem hazard_inLen (s : State) : (hazard s).inLen = s.inLen := rfl
@[simp] theorem hazard_outLen (s : State) : (hazard s).outLen = s.outLen := rfl
@[simp] theorem hazard_indexLo (s : State) : (hazard s).indexLo = s.indexLo := rfl
@[simp] theorem hazard_indexHi (s : State) : (hazard s).indexHi = s.indexHi := rfl
@[simp] theorem hazard_mem (s : State) : (hazard s).mem = s.mem := rfl
@[simp] theorem hazard_dp (s : State) : (hazard s).dp = s.dp := rfl
@[simp] theorem hazard_events (s : State) : (hazard s).events = s.events := rfl
@[simp] theorem hazard_script (s : State) : (hazard s).script = s.script := rfl
@[simp] theorem hazard_schedule (s : State) : (hazard s).schedule = s.schedule := rfl
@[simp] theorem hazard_responses (s : State) : (hazard s).responses = s.responses := rfl
@[simp] theorem hazard_rngSupply (s : State) : (hazard s).rngSupply = s.rngSupply := rfl
@[simp] theorem hazard_rngCount (s : State) : (hazard s).rngCount = s.rngCount := rfl
@[simp] theorem hazard_busySupply (s : State) : (hazard s).busySupply = s.busySupply := rfl
@[simp] theorem hazard_busyCount (s : State) : (hazard s).busyCount = s.busyCount := rfl

/-! ### drawNonce -/

@[simp] theorem drawNonce_params (s : State) : (drawNonce s).params = s.params := rfl
@[simp] theorem drawNonce_ctrlIE (s : State) : (drawNonce s).ctrlIE = s.ctrlIE := rfl
@[simp] theorem drawNonce_cmd (s : State) : (drawNonce s).cmd = s.cmd := rfl
@[simp] theorem drawNonce_status (s : State) : (drawNonce s).status = s.status := rfl
@[simp] theorem drawNonce_errCode (s : State) : (drawNonce s).errCode = s.errCode := rfl
@[simp] theorem drawNonce_pwdLen (s : State) : (drawNonce s).pwdLen = s.pwdLen := rfl
@[simp] theorem drawNonce_inLen (s : State) : (drawNonce s).inLen = s.inLen := rfl
@[simp] theorem drawNonce_outLen (s : State) : (drawNonce s).outLen = s.outLen := rfl
@[simp] theorem drawNonce_indexLo (s : State) : (drawNonce s).indexLo = s.indexLo := rfl
@[simp] theorem drawNonce_indexHi (s : State) : (drawNonce s).indexHi = s.indexHi := rfl
@[simp] theorem drawNonce_mem (s : State) : (drawNonce s).mem = s.mem := rfl
@[simp] theorem drawNonce_dp (s : State) : (drawNonce s).dp = s.dp := rfl
@[simp] theorem drawNonce_events (s : State) : (drawNonce s).events = s.events ++ [.rngReq (nextNonce s)] := rfl
@[simp] theorem drawNonce_script (s : State) : (drawNonce s).script = s.script := rfl
@[simp] theorem drawNonce_schedule (s : State) : (drawNonce s).schedule = s.schedule := rfl
@[simp] theorem drawNonce_responses (s : State) : (drawNonce s).responses = s.responses := rfl
@[simp] theorem drawNonce_rngSupply (s : State) : (drawNonce s).rngSupply = s.rngSupply.tail := rfl
@[simp] theorem drawNonce_rngCount (s : State) : (drawNonce s).rngCount = s.rngCount + 1 := rfl
@[simp] theorem drawNonce_busySupply (s : State) : (drawNonce s).busySupply = s.busySupply := rfl
@[simp] theorem drawNonce_busyCount (s : State) : (drawNonce s).busyCount = s.busyCount := rfl

/-! ### drawBusyValue -/

@[simp] theorem drawBusyValue_params (s : State) : (drawBusyValue s).params = s.params := rfl
@[simp] theorem drawBusyValue_ctrlIE (s : State) : (drawBusyValue s).ctrlIE = s.ctrlIE := rfl
@[simp] theorem drawBusyValue_cmd (s : State) : (drawBusyValue s).cmd = s.cmd := rfl
@[simp] theorem drawBusyValue_status (s : State) : (drawBusyValue s).status = s.status := rfl
@[simp] theorem drawBusyValue_errCode (s : State) : (drawBusyValue s).errCode = s.errCode := rfl
@[simp] theorem drawBusyValue_pwdLen (s : State) : (drawBusyValue s).pwdLen = s.pwdLen := rfl
@[simp] theorem drawBusyValue_inLen (s : State) : (drawBusyValue s).inLen = s.inLen := rfl
@[simp] theorem drawBusyValue_outLen (s : State) : (drawBusyValue s).outLen = s.outLen := rfl
@[simp] theorem drawBusyValue_indexLo (s : State) : (drawBusyValue s).indexLo = s.indexLo := rfl
@[simp] theorem drawBusyValue_indexHi (s : State) : (drawBusyValue s).indexHi = s.indexHi := rfl
@[simp] theorem drawBusyValue_mem (s : State) : (drawBusyValue s).mem = s.mem := rfl
@[simp] theorem drawBusyValue_dp (s : State) : (drawBusyValue s).dp = s.dp := rfl
@[simp] theorem drawBusyValue_events (s : State) : (drawBusyValue s).events = s.events := rfl
@[simp] theorem drawBusyValue_script (s : State) : (drawBusyValue s).script = s.script := rfl
@[simp] theorem drawBusyValue_schedule (s : State) : (drawBusyValue s).schedule = s.schedule := rfl
@[simp] theorem drawBusyValue_responses (s : State) : (drawBusyValue s).responses = s.responses := rfl
@[simp] theorem drawBusyValue_rngSupply (s : State) : (drawBusyValue s).rngSupply = s.rngSupply := rfl
@[simp] theorem drawBusyValue_rngCount (s : State) : (drawBusyValue s).rngCount = s.rngCount := rfl
@[simp] theorem drawBusyValue_busySupply (s : State) : (drawBusyValue s).busySupply = s.busySupply.tail := rfl
@[simp] theorem drawBusyValue_busyCount (s : State) : (drawBusyValue s).busyCount = s.busyCount + 1 := rfl

/-! ### respond -/

@[simp] theorem respond_params (x : Response) (s : State) : (respond x s).params = s.params := rfl
@[simp] theorem respond_ctrlIE (x : Response) (s : State) : (respond x s).ctrlIE = s.ctrlIE := rfl
@[simp] theorem respond_cmd (x : Response) (s : State) : (respond x s).cmd = s.cmd := rfl
@[simp] theorem respond_status (x : Response) (s : State) : (respond x s).status = s.status := rfl
@[simp] theorem respond_errCode (x : Response) (s : State) : (respond x s).errCode = s.errCode := rfl
@[simp] theorem respond_pwdLen (x : Response) (s : State) : (respond x s).pwdLen = s.pwdLen := rfl
@[simp] theorem respond_inLen (x : Response) (s : State) : (respond x s).inLen = s.inLen := rfl
@[simp] theorem respond_outLen (x : Response) (s : State) : (respond x s).outLen = s.outLen := rfl
@[simp] theorem respond_indexLo (x : Response) (s : State) : (respond x s).indexLo = s.indexLo := rfl
@[simp] theorem respond_indexHi (x : Response) (s : State) : (respond x s).indexHi = s.indexHi := rfl
@[simp] theorem respond_mem (x : Response) (s : State) : (respond x s).mem = s.mem := rfl
@[simp] theorem respond_dp (x : Response) (s : State) : (respond x s).dp = s.dp := rfl
@[simp] theorem respond_events (x : Response) (s : State) : (respond x s).events = s.events := rfl
@[simp] theorem respond_script (x : Response) (s : State) : (respond x s).script = s.script := rfl
@[simp] theorem respond_schedule (x : Response) (s : State) : (respond x s).schedule = s.schedule := rfl
@[simp] theorem respond_responses (x : Response) (s : State) : (respond x s).responses = s.responses ++ [x] := rfl
@[simp] theorem respond_rngSupply (x : Response) (s : State) : (respond x s).rngSupply = s.rngSupply := rfl
@[simp] theorem respond_rngCount (x : Response) (s : State) : (respond x s).rngCount = s.rngCount := rfl
@[simp] theorem respond_busySupply (x : Response) (s : State) : (respond x s).busySupply = s.busySupply := rfl
@[simp] theorem respond_busyCount (x : Response) (s : State) : (respond x s).busyCount = s.busyCount := rfl

/-! ### takeTurn -/

@[simp] theorem takeTurn_params (s : State) : (takeTurn s).params = s.params := rfl
@[simp] theorem takeTurn_ctrlIE (s : State) : (takeTurn s).ctrlIE = s.ctrlIE := rfl
@[simp] theorem takeTurn_cmd (s : State) : (takeTurn s).cmd = s.cmd := rfl
@[simp] theorem takeTurn_status (s : State) : (takeTurn s).status = s.status := rfl
@[simp] theorem takeTurn_errCode (s : State) : (takeTurn s).errCode = s.errCode := rfl
@[simp] theorem takeTurn_pwdLen (s : State) : (takeTurn s).pwdLen = s.pwdLen := rfl
@[simp] theorem takeTurn_inLen (s : State) : (takeTurn s).inLen = s.inLen := rfl
@[simp] theorem takeTurn_outLen (s : State) : (takeTurn s).outLen = s.outLen := rfl
@[simp] theorem takeTurn_indexLo (s : State) : (takeTurn s).indexLo = s.indexLo := rfl
@[simp] theorem takeTurn_indexHi (s : State) : (takeTurn s).indexHi = s.indexHi := rfl
@[simp] theorem takeTurn_mem (s : State) : (takeTurn s).mem = s.mem := rfl
@[simp] theorem takeTurn_dp (s : State) : (takeTurn s).dp = s.dp := rfl
@[simp] theorem takeTurn_events (s : State) : (takeTurn s).events = s.events := rfl
@[simp] theorem takeTurn_script (s : State) : (takeTurn s).script = s.script := rfl
@[simp] theorem takeTurn_schedule (s : State) : (takeTurn s).schedule = s.schedule.tail := rfl
@[simp] theorem takeTurn_responses (s : State) : (takeTurn s).responses = s.responses := rfl
@[simp] theorem takeTurn_rngSupply (s : State) : (takeTurn s).rngSupply = s.rngSupply := rfl
@[simp] theorem takeTurn_rngCount (s : State) : (takeTurn s).rngCount = s.rngCount := rfl
@[simp] theorem takeTurn_busySupply (s : State) : (takeTurn s).busySupply = s.busySupply := rfl
@[simp] theorem takeTurn_busyCount (s : State) : (takeTurn s).busyCount = s.busyCount := rfl

/-! ### platformReset -/

@[simp] theorem platformReset_params (s : State) : (platformReset s).params = s.params := rfl
@[simp] theorem platformReset_ctrlIE (s : State) : (platformReset s).ctrlIE = false := rfl
@[simp] theorem platformReset_cmd (s : State) : (platformReset s).cmd = 0 := rfl
@[simp] theorem platformReset_status (s : State) : (platformReset s).status = .zero := rfl
@[simp] theorem platformReset_errCode (s : State) : (platformReset s).errCode = 0 := rfl
@[simp] theorem platformReset_pwdLen (s : State) : (platformReset s).pwdLen = 0 := rfl
@[simp] theorem platformReset_inLen (s : State) : (platformReset s).inLen = 0 := rfl
@[simp] theorem platformReset_outLen (s : State) : (platformReset s).outLen = 0 := rfl
@[simp] theorem platformReset_indexLo (s : State) : (platformReset s).indexLo = 0 := rfl
@[simp] theorem platformReset_indexHi (s : State) : (platformReset s).indexHi = 0 := rfl
@[simp] theorem platformReset_mem (s : State) : (platformReset s).mem = [] := rfl
@[simp] theorem platformReset_dp (s : State) : (platformReset s).dp = .zero := rfl
@[simp] theorem platformReset_events (s : State) : (platformReset s).events = s.events := rfl
@[simp] theorem platformReset_script (s : State) : (platformReset s).script = s.script := rfl
@[simp] theorem platformReset_schedule (s : State) : (platformReset s).schedule = s.schedule := rfl
@[simp] theorem platformReset_responses (s : State) : (platformReset s).responses = s.responses := rfl
@[simp] theorem platformReset_rngSupply (s : State) : (platformReset s).rngSupply = s.rngSupply := rfl
@[simp] theorem platformReset_rngCount (s : State) : (platformReset s).rngCount = s.rngCount := rfl
@[simp] theorem platformReset_busySupply (s : State) : (platformReset s).busySupply = s.busySupply := rfl
@[simp] theorem platformReset_busyCount (s : State) : (platformReset s).busyCount = s.busyCount := rfl

/-! ### endCommand -/

@[simp] theorem endCommand_params (pw : Bool) (s : State) :
    (endCommand pw s).params = s.params := by cases pw <;> rfl
@[simp] theorem endCommand_ctrlIE (pw : Bool) (s : State) :
    (endCommand pw s).ctrlIE = s.ctrlIE := by cases pw <;> rfl
@[simp] theorem endCommand_cmd (pw : Bool) (s : State) :
    (endCommand pw s).cmd = s.cmd := by cases pw <;> rfl
@[simp] theorem endCommand_status (pw : Bool) (s : State) :
    (endCommand pw s).status = statusAtEnd s.status := by cases pw <;> rfl
@[simp] theorem endCommand_errCode (pw : Bool) (s : State) :
    (endCommand pw s).errCode = s.errCode := by cases pw <;> rfl
@[simp] theorem endCommand_pwdLen (pw : Bool) (s : State) :
    (endCommand pw s).pwdLen = if pw then 0 else s.pwdLen := by cases pw <;> rfl
@[simp] theorem endCommand_inLen (pw : Bool) (s : State) :
    (endCommand pw s).inLen = s.inLen := by cases pw <;> rfl
@[simp] theorem endCommand_outLen (pw : Bool) (s : State) :
    (endCommand pw s).outLen = s.outLen := by cases pw <;> rfl
@[simp] theorem endCommand_indexLo (pw : Bool) (s : State) :
    (endCommand pw s).indexLo = s.indexLo := by cases pw <;> rfl
@[simp] theorem endCommand_indexHi (pw : Bool) (s : State) :
    (endCommand pw s).indexHi = s.indexHi := by cases pw <;> rfl
@[simp] theorem endCommand_mem (pw : Bool) (s : State) :
    (endCommand pw s).mem = if pw then s.mem.clear pwdBase s.params.pwdCap else s.mem := by cases pw <;> rfl
@[simp] theorem endCommand_dp (pw : Bool) (s : State) :
    (endCommand pw s).dp = .zero := by cases pw <;> rfl
@[simp] theorem endCommand_events (pw : Bool) (s : State) :
    (endCommand pw s).events = s.events := by cases pw <;> rfl
@[simp] theorem endCommand_script (pw : Bool) (s : State) :
    (endCommand pw s).script = s.script := by cases pw <;> rfl
@[simp] theorem endCommand_schedule (pw : Bool) (s : State) :
    (endCommand pw s).schedule = s.schedule := by cases pw <;> rfl
@[simp] theorem endCommand_responses (pw : Bool) (s : State) :
    (endCommand pw s).responses = s.responses := by cases pw <;> rfl
@[simp] theorem endCommand_rngSupply (pw : Bool) (s : State) :
    (endCommand pw s).rngSupply = s.rngSupply := by cases pw <;> rfl
@[simp] theorem endCommand_rngCount (pw : Bool) (s : State) :
    (endCommand pw s).rngCount = s.rngCount := by cases pw <;> rfl
@[simp] theorem endCommand_busySupply (pw : Bool) (s : State) :
    (endCommand pw s).busySupply = s.busySupply := by cases pw <;> rfl
@[simp] theorem endCommand_busyCount (pw : Bool) (s : State) :
    (endCommand pw s).busyCount = s.busyCount := by cases pw <;> rfl

/-! ### Flags -/

@[simp] theorem statusAtStart_busy (st : Status) : (statusAtStart st).busy = true := rfl
@[simp] theorem statusAtStart_done (st : Status) : (statusAtStart st).done = false := rfl
@[simp] theorem statusAtStart_err (st : Status) : (statusAtStart st).err = false := rfl
@[simp] theorem statusAtStart_vok (st : Status) : (statusAtStart st).vok = false := rfl
@[simp] theorem statusAtStart_haz (st : Status) : (statusAtStart st).haz = st.haz := rfl
@[simp] theorem statusAtError_busy (st : Status) : (statusAtError st).busy = st.busy := rfl
@[simp] theorem statusAtError_done (st : Status) : (statusAtError st).done = st.done := rfl
@[simp] theorem statusAtError_err (st : Status) : (statusAtError st).err = true := rfl
@[simp] theorem statusAtError_vok (st : Status) : (statusAtError st).vok = false := rfl
@[simp] theorem statusAtError_haz (st : Status) : (statusAtError st).haz = st.haz := rfl
@[simp] theorem statusAtSuccess_busy (st : Status) : (statusAtSuccess st).busy = st.busy := rfl
@[simp] theorem statusAtSuccess_done (st : Status) : (statusAtSuccess st).done = st.done := rfl
@[simp] theorem statusAtSuccess_err (st : Status) : (statusAtSuccess st).err = false := rfl
@[simp] theorem statusAtSuccess_vok (st : Status) : (statusAtSuccess st).vok = st.vok := rfl
@[simp] theorem statusAtSuccess_haz (st : Status) : (statusAtSuccess st).haz = st.haz := rfl
@[simp] theorem statusAtEnd_busy (st : Status) : (statusAtEnd st).busy = false := rfl
@[simp] theorem statusAtEnd_done (st : Status) : (statusAtEnd st).done = true := rfl
@[simp] theorem statusAtEnd_err (st : Status) : (statusAtEnd st).err = st.err := rfl
@[simp] theorem statusAtEnd_vok (st : Status) : (statusAtEnd st).vok = st.vok := rfl
@[simp] theorem statusAtEnd_haz (st : Status) : (statusAtEnd st).haz = st.haz := rfl
@[simp] theorem statusAtHazard_busy (st : Status) : (statusAtHazard st).busy = st.busy := rfl
@[simp] theorem statusAtHazard_done (st : Status) : (statusAtHazard st).done = st.done := rfl
@[simp] theorem statusAtHazard_err (st : Status) : (statusAtHazard st).err = st.err := rfl
@[simp] theorem statusAtHazard_vok (st : Status) : (statusAtHazard st).vok = st.vok := rfl
@[simp] theorem statusAtHazard_haz (st : Status) : (statusAtHazard st).haz = true := rfl
@[simp] theorem statusAfterWrite_busy (v : Word) (st : Status) : (statusAfterWrite v st).busy = st.busy := rfl
@[simp] theorem statusAfterWrite_done (v : Word) (st : Status) : (statusAfterWrite v st).done = (st.done && !v.getLsbD 1) := rfl
@[simp] theorem statusAfterWrite_err (v : Word) (st : Status) : (statusAfterWrite v st).err = st.err := rfl
@[simp] theorem statusAfterWrite_vok (v : Word) (st : Status) : (statusAfterWrite v st).vok = st.vok := rfl
@[simp] theorem statusAfterWrite_haz (v : Word) (st : Status) : (statusAfterWrite v st).haz = (st.haz && !v.getLsbD 4) := rfl

end Sys2Proof.Machine
end

