-- ==== Sys2Proof/Laws/Ops.lean ====
section
/-! SUPPORT. What the shared operations of a command can do: each is said once, so that a proof cites it and unfolds nothing. -/

namespace Sys2Proof.Machine

/-! ### Layout -/

theorem outBase_eq : outBase = 0x20000 := rfl
theorem inBase_eq : inBase = 0x10000 := rfl
theorem pwdBase_eq : pwdBase = 0x100 := rfl
theorem windowSize_eq : windowSize = 0x30000 := rfl
theorem outCap_eq (p : Params) : outCap p = p.inCap + 96 := rfl

/-- R10's bounds, as numbers. -/
theorem params_bounds {p : Params} (h : p.wf = true) :
    1 ≤ p.pwdCap ∧ p.pwdCap ≤ 256 ∧ p.inCap % 32 = 0 ∧ 96 ≤ p.inCap ∧ p.inCap ≤ 65440 := by
  simp [Params.wf, Params.pwdCapOk, Params.inCapAligned, Params.inCapInRange] at h
  omega

/-! ### The body's starting state -/

theorem read_clearOut (s : State) (x : Nat) :
    (clearOut s).mem.read x = if outBase ≤ x ∧ x < outBase + outCap s.params then 0 else s.mem.read x :=
  read_clear _ _ _ _

/-- Zero-filling OUT leaves the input operand as it is. -/
theorem inputBytes_clearOut {s : State} (h : inBase + s.inLen.toNat ≤ outBase) : inputBytes (clearOut s) = inputBytes s := by
  unfold inputBytes
  apply readBytes_congr
  intro x h1 h2
  rw [clearOut_inLen] at h2
  rw [read_clearOut, if_neg (by omega)]

/-- Zero-filling OUT leaves the password operand as it is. -/
theorem passwordBytes_clearOut {s : State} (h : pwdBase + s.pwdLen.toNat ≤ outBase) :
    passwordBytes (clearOut s) = passwordBytes s := by
  unfold passwordBytes
  apply readBytes_congr
  intro x h1 h2
  rw [clearOut_pwdLen] at h2
  rw [read_clearOut, if_neg (by omega)]

@[simp] theorem length_inputBytes (s : State) : (inputBytes s).length = s.inLen.toNat := length_readBytes _ _ _
@[simp] theorem length_passwordBytes (s : State) : (passwordBytes s).length = s.pwdLen.toNat := length_readBytes _ _ _

@[simp] theorem indexOperand_clearOut (s : State) : indexOperand (clearOut s) = indexOperand s := rfl
@[simp] theorem passwordCheck_clearOut (s : State) : passwordCheck (clearOut s) = passwordCheck s := rfl
@[simp] theorem inputCheck_clearOut (s : State) : inputCheck (clearOut s) = inputCheck s := rfl
@[simp] theorem nextNonce_clearOut (s : State) : nextNonce (clearOut s) = nextNonce s := rfl

/-! ### The operand checks -/

theorem inputTooLong_iff (s : State) : inputTooLong s = true ↔ s.params.inCap < s.inLen.toNat := by simp [inputTooLong]

theorem inputCheck_none_iff (s : State) : inputCheck s = none ↔ s.inLen.toNat ≤ s.params.inCap := by
  simp [inputCheck, inputTooLong]

/-- The password commands' checks pass exactly when the password is not empty and both lengths fit. -/
theorem passwordCheck_none_iff (s : State) :
    passwordCheck s = none ↔
      s.pwdLen ≠ 0 ∧ s.pwdLen.toNat ≤ s.params.pwdCap ∧ s.inLen.toNat ≤ s.params.inCap := by
  unfold passwordCheck inputTooLong passwordTooLong
  split
  · simp_all
  · split
    · simp_all only [Bool.or_eq_true, decide_eq_true_eq]
      simp only [reduceCtorEq, false_iff]
      omega
    · simp_all

/-! ### The course of a command -/

theorem runBody_ok {pw : Bool} {body : State → Except CmdError State} {s t : State} (h : body (clearOut s) = .ok t) :
    runBody pw body s = endCommand pw (completeOk t) := by simp [runBody, h]

theorem runBody_error {pw : Bool} {body : State → Except CmdError State} {s : State} {e : CmdError}
    (h : body (clearOut s) = .error e) : runBody pw body s = endCommand pw (raiseError e (clearOut s)) := by
  simp [runBody, h]

/-- Everything an engine step can do: the body's own result, or an error completion from the state the body started from. -/
theorem runBody_cases (pw : Bool) (body : State → Except CmdError State) (s : State) :
    (∃ t, body (clearOut s) = .ok t ∧ runBody pw body s = endCommand pw (completeOk t)) ∨
      ∃ e, body (clearOut s) = .error e ∧ runBody pw body s = endCommand pw (raiseError e (clearOut s)) := by
  cases h : body (clearOut s) with
  | ok t => exact .inl ⟨t, rfl, runBody_ok h⟩
  | error e => exact .inr ⟨e, rfl, runBody_error h⟩

/-- The bytes after the common end: PWD zero for a password command, everything else as the body left it. -/
theorem read_endCommand (pw : Bool) (s : State) (x : Nat) :
    (endCommand pw s).mem.read x =
      if pw = true ∧ pwdBase ≤ x ∧ x < pwdBase + s.params.pwdCap then 0 else s.mem.read x := by
  cases pw <;> simp [read_clear]

/-- The bytes after a result is written to a zero-filled OUT: the result, then zeros; everything else as it was. -/
theorem read_writeResult {bs : List Byte} {s t : State} (hm : t.mem = (clearOut s).mem)
    (hl : bs.length ≤ outCap s.params) (x : Nat) :
    (writeResult bs t).mem.read x =
      if outBase ≤ x ∧ x < outBase + outCap s.params then bs.getD (x - outBase) 0 else s.mem.read x := by
  rw [writeResult_mem, hm, read_store, read_clearOut]
  by_cases h1 : outBase ≤ x ∧ x < outBase + bs.length
  · rw [if_pos h1, if_pos ⟨h1.1, by omega⟩]
  · rw [if_neg h1]
    by_cases h2 : outBase ≤ x ∧ x < outBase + outCap s.params
    · rw [if_pos h2, if_pos h2, List.getD_eq_default _ _ (by omega)]
    · rw [if_neg h2, if_neg h2]

/-- The bytes after an error completion: OUT zero, everything else as it was (R158). -/
theorem read_raiseError (e : CmdError) (s : State) (x : Nat) :
    (raiseError e (clearOut s)).mem.read x =
      if outBase ≤ x ∧ x < outBase + outCap s.params then 0 else s.mem.read x := by
  rw [raiseError_mem, read_clear, read_clearOut, clearOut_params]
  split <;> rfl

/-! ### Writes while BUSY -/

/-- An operand write either happens, in IDLE, or is the hazard, in BUSY. -/
theorem unlessBusy_cases (f : State → State) (s : State) :
    (s.status.busy = false ∧ unlessBusy f s = f s) ∨ (s.status.busy = true ∧ unlessBusy f s = hazard s) := by
  cases h : s.status.busy <;> simp [unlessBusy, h]

theorem unlessBusy_idle {f : State → State} {s : State} (h : s.status.busy = false) : unlessBusy f s = f s := by
  simp [unlessBusy, h]

theorem unlessBusy_busy {f : State → State} {s : State} (h : s.status.busy = true) : unlessBusy f s = hazard s := by
  simp [unlessBusy, h]

/-! ### Digests -/

/-- A digest made of 32 bytes holds them in order. -/
theorem toList_digestOfBytes {bs : List Byte} (h : bs.length = 32) : (digestOfBytes bs).toList = bs := by
  simp [digestOfBytes, Vector.toList, h]

/-- A digest made of bytes holds the first 32, zeros where there are fewer. -/
theorem toList_digestOfBytes_take (bs : List Byte) : (digestOfBytes bs).toList = (bs ++ zeros 32).take 32 := by
  simp [digestOfBytes, Vector.toList]

@[simp] theorem length_digest (d : Digest) : d.toList.length = 32 := by simp

@[simp] theorem length_le32 (v : Word) : (le32 v).length = 4 := rfl

@[simp] theorem length_xorBytes (a b : List Byte) : (xorBytes a b).length = min a.length b.length := by simp [xorBytes]

/-- Reading the little-endian bytes of a word gives the word back (R55). -/
theorem wordOfLe_le32 (v : Word) : wordOfLe (le32 v) = v := by
  simp only [wordOfLe, le32, List.getD_cons_zero, List.getD_cons_succ]
  apply BitVec.eq_of_getLsbD_eq
  intro i hi
  simp only [BitVec.getLsbD_append, BitVec.getLsbD_extractLsb']
  by_cases h1 : i < 8
  · simp [h1]
  · by_cases h2 : i - 8 < 8
    · simp [h1, h2, show 8 + (i - 8) = i by omega]
    · by_cases h3 : i - 8 - 8 < 8
      · simp [h1, h2, h3, show 16 + (i - 8 - 8) = i by omega]
      · simp [h1, h2, h3, show i - 8 - 8 - 8 < 8 by omega, show 24 + (i - 8 - 8 - 8) = i by omega]

end Sys2Proof.Machine
end

