-- ==== Sys2Proof/Laws/Codec.lean ====
section
/-! SUPPORT. What the pure functions of the commands can do: the varint, the frame and the block loop, one lemma each. -/

namespace Sys2Proof.Machine

/-- Leb emits at least one byte, and one more at most than its bound of continuation bytes. -/
theorem length_lebGo (n : Nat) (u : DWord) : 1 ≤ (lebGo n u).length ∧ (lebGo n u).length ≤ n + 1 := by
  induction n generalizing u with
  | zero => simp [lebGo]
  | succ n ih =>
    unfold lebGo
    split
    · have := ih (u >>> 7)
      simp only [List.length_cons]
      omega
    · simp

/-- A varint has one to ten bytes (R93). -/
theorem length_encodeVarint (v : DWord) : 1 ≤ (encodeVarint v).length ∧ (encodeVarint v).length ≤ 10 := length_lebGo 9 _

/-- The index buffer is the varint with zeros up to 32 bytes (R100). -/
theorem toList_indexBuffer (i : DWord) :
    (indexBuffer i).toList = encodeVarint i ++ zeros (32 - (encodeVarint i).length) := by
  have := (length_encodeVarint i).2
  rw [indexBuffer, toList_digestOfBytes_take, List.take_append, List.take_of_length_le (by omega), zeros, List.take_replicate]
  congr
  omega

/-- A frame is 32 bytes a block (R110). -/
theorem length_frameBytes (d : List Byte) : (frameBytes d).length = 32 * blockCount d.length := by
  unfold frameBytes blockCount
  simp [zeros]
  omega

/-- What Unframe can answer (R112): the data, or FORMAT for a short frame or a length field that does not fit. -/
theorem unframeBytes_cases (f : List Byte) :
    (unframeBytes f = .error .format ∧ (f.length < 4 ∨ f.length - 4 < (wordOfLe f).toNat)) ∨
      (unframeBytes f = .ok ((f.drop 4).take (wordOfLe f).toNat) ∧ 4 ≤ f.length ∧ (wordOfLe f).toNat ≤ f.length - 4) := by
  unfold unframeBytes
  by_cases h1 : f.length < 4
  · exact .inl ⟨by rw [if_pos h1], .inl h1⟩
  · by_cases h2 : f.length - 4 < (wordOfLe f).toNat
    · exact .inl ⟨by rw [if_neg h1, if_pos h2], .inr h2⟩
    · exact .inr ⟨by rw [if_neg h1, if_neg h2], by omega, by omega⟩

/-- The block loop never loads PDIG or NDIG, and gives 32 bytes a block (R121). -/
theorem cipherLoop_keeps (P : Ports) (n i : Nat) (dp : Datapath) (x : List Byte) (h : 32 * n ≤ x.length) :
    (cipherLoop P n i dp x).1.pdig = dp.pdig ∧ (cipherLoop P n i dp x).1.ndig = dp.ndig ∧
      (cipherLoop P n i dp x).2.length = 32 * n := by
  induction n generalizing i dp x with
  | zero => simp [cipherLoop]
  | succ n ih =>
    have hk := ih (i + 1) (loadBlockKey P (BitVec.ofNat 64 i) { dp with blk := BitVec.ofNat 64 i }) (x.drop 32)
      (by rw [List.length_drop]; omega)
    refine ⟨hk.1, hk.2.1, ?_⟩
    simp only [cipherLoop, List.length_append, hk.2.2, blockXor, length_xorBytes, List.length_take, length_digest]
    omega

end Sys2Proof.Machine
end

