-- ==== Sys2Proof/Laws/PerInstr.lean ====
section
/-! SUPPORT. The families of statements made for all commands, one lemma per constructor. -/

namespace Sys2Proof.Laws

/-- The command is well formed, its word's RSV field is 0 (30_encoding.md R70) and its OP field is 0x1 to 0x7 (R71). -/
def LegalWord.Statement (i : Instr) : Prop :=
  i.wf = true ∧ (cmdFields (encode i)).wf = true ∧ (cmdFields (encode i)).op = opOfInstr i

theorem LegalWord.encrypt : LegalWord.Statement .encrypt := by unfold LegalWord.Statement; decide
theorem LegalWord.decrypt : LegalWord.Statement .decrypt := by unfold LegalWord.Statement; decide
theorem LegalWord.verify : LegalWord.Statement .verify := by unfold LegalWord.Statement; decide
theorem LegalWord.varint : LegalWord.Statement .varint := by unfold LegalWord.Statement; decide
theorem LegalWord.deriveKey : LegalWord.Statement .deriveKey := by unfold LegalWord.Statement; decide
theorem LegalWord.frame : LegalWord.Statement .frame := by unfold LegalWord.Statement; decide
theorem LegalWord.unframe : LegalWord.Statement .unframe := by unfold LegalWord.Statement; decide

end Sys2Proof.Laws
end

