-- ==== Sys2Proof/Laws/Window.lean ====
section
/-! SUPPORT. What the window's address map and the host's accesses can do. -/

namespace Sys2Proof.Machine

/-! ### The address map -/

theorem inBuffer_iff (p : Params) (b : Buffer) (off : Nat) :
    inBuffer p b off = true ↔ bufBase b ≤ off ∧ off < bufBase b + bufCap p b := by simp [inBuffer]

/-- An offset is in a buffer's region exactly when it lies in the buffer's mapped bytes: the buffers do not overlap. -/
theorem regionAt_buf_iff {p : Params} (h : p.wf = true) (b : Buffer) (off : Nat) :
    regionAt p off = some (.buf b) ↔ inBuffer p b off = true := by
  have hb := params_bounds h
  have e1 : inBuffer p .pwd off = true ↔ 0x100 ≤ off ∧ off < 0x100 + p.pwdCap := inBuffer_iff p .pwd off
  have e2 : inBuffer p .inp off = true ↔ 0x10000 ≤ off ∧ off < 0x10000 + p.inCap := inBuffer_iff p .inp off
  have e3 : inBuffer p .out off = true ↔ 0x20000 ≤ off ∧ off < 0x20000 + (p.inCap + 96) := inBuffer_iff p .out off
  unfold regionAt
  rw [pwdBase_eq]
  by_cases h0 : off < 0x100
  · rw [if_pos h0]
    cases b <;> simp only [Option.map_eq_some_iff, reduceCtorEq, and_false, exists_false, false_iff] <;>
      simp only [e1, e2, e3] <;> omega
  · rw [if_neg h0]
    by_cases h1 : inBuffer p .pwd off = true
    · rw [if_pos h1]
      cases b <;> simp [h1, e2, e3] <;> rw [e1] at h1 <;> omega
    · rw [if_neg h1]
      by_cases h2 : inBuffer p .inp off = true
      · rw [if_pos h2]
        cases b <;> simp [h1, h2, e3]
        rw [e2] at h2; omega
      · rw [if_neg h2]
        by_cases h3 : inBuffer p .out off = true
        · rw [if_pos h3]; cases b <;> simp [h1, h2, h3]
        · rw [if_neg h3]; cases b <;> simp [h1, h2, h3]

theorem regionAt_reg_iff (p : Params) (r : Reg) (off : Nat) :
    regionAt p off = some (.reg r) ↔ off < 0x100 ∧ regAt off = some r := by
  unfold regionAt
  rw [pwdBase_eq]
  by_cases h0 : off < 0x100
  · simp [h0]
  · simp only [h0, if_false, false_and, iff_false]
    split
    · simp
    · split
      · simp
      · split <;> simp

/-- The offset of each register (10_state.md R23 to R30). -/
def regOffset : Reg → Nat
  | .ctrl => 0x000
  | .cmd => 0x004
  | .status => 0x008
  | .errCode => 0x00C
  | .pwdLen => 0x010
  | .inLen => 0x014
  | .outLen => 0x018
  | .indexLo => 0x020
  | .indexHi => 0x024

theorem regAt_iff (off : Nat) (r : Reg) : regAt off = some r ↔ off / 4 = regOffset r / 4 := by
  generalize hk : off / 4 = k
  unfold regAt
  rw [hk]
  split <;> cases r <;> simp_all [regOffset]

theorem mapped_lt_windowSize {p : Params} (h : p.wf = true) {b : Buffer} {off : Nat} (hb : inBuffer p b off = true) :
    off < windowSize := by
  have := params_bounds h
  rw [inBuffer_iff] at hb
  cases b <;> simp only [bufBase, bufCap, pwdBase_eq, inBase_eq, outBase_eq, outCap_eq] at hb <;> rw [windowSize_eq] <;> omega

/-- A 1-byte access passes exactly on a mapped buffer byte (R52, R54). -/
theorem check8_ok_iff {p : Params} (h : p.wf = true) (off : Nat) (b : Buffer) :
    check8 p off = .ok b ↔ inBuffer p b off = true := by
  unfold check8
  split
  · rename_i hw
    simp only [reduceCtorEq, false_iff]
    intro hb
    have := mapped_lt_windowSize h hb
    omega
  · rw [← regionAt_buf_iff h]
    split <;> simp_all

/-- A 4-byte access passes on a buffer exactly when it is aligned and its first and last bytes are mapped there (R53). -/
theorem check32_buf_iff {p : Params} (h : p.wf = true) (off : Nat) (b : Buffer) :
    check32 p off = .ok (.buf b) ↔ off % 4 = 0 ∧ inBuffer p b off = true ∧ inBuffer p b (off + 3) = true := by
  unfold check32
  split
  · rename_i hw
    simp only [reduceCtorEq, false_iff]
    rintro ⟨_, hb, _⟩
    have := mapped_lt_windowSize h hb
    omega
  · rw [← regionAt_buf_iff h, ← regionAt_buf_iff h]
    split
    · rename_i h0; simp [h0]
    · rename_i r h0
      rw [h0]
      split
      · rename_i h1; simp [h1]
      · rename_i h1
        simp only [ne_eq, Decidable.not_not] at h1
        split
        · rename_i h2
          simp only [reduceCtorEq, false_iff, Option.some.injEq, not_and]
          rintro _ rfl; exact h2
        · rename_i h2
          simp only [ne_eq, Decidable.not_not] at h2
          simp only [Except.ok.injEq, h1, Option.some.injEq, true_and, h2, and_self]

/-- A 4-byte access passes on a register exactly at the register's own offset (R52, R53). -/
theorem check32_reg_iff (p : Params) (off : Nat) (r : Reg) : check32 p off = .ok (.reg r) ↔ off = regOffset r := by
  have key : ∀ o, regionAt p o = some (.reg r) ↔ o < 0x100 ∧ o / 4 = regOffset r / 4 := fun o => by
    rw [regionAt_reg_iff, regAt_iff]
  have hr : regOffset r % 4 = 0 ∧ regOffset r < 0x28 := by cases r <;> simp [regOffset]
  constructor
  · unfold check32
    split
    · simp
    · split
      · simp
      · rename_i x h0
        split
        · simp
        · rename_i h1
          split
          · simp
          · intro he
            cases he
            have := (key off).1 h0
            omega
  · rintro rfl
    have h0 := (key (regOffset r)).2 (by omega)
    have h3 := (key (regOffset r + 3)).2 (by omega)
    unfold check32
    rw [windowSize_eq, if_neg (by omega), h0]
    simp [hr.1, h3]

/-- Every register passes the check of a 4-byte access at its offset. -/
theorem check32_regOffset (p : Params) (r : Reg) : check32 p (regOffset r) = .ok (.reg r) := (check32_reg_iff p _ r).2 rfl

/-- Which 4-byte accesses pass at all. -/
theorem check32_ok_iff {p : Params} (h : p.wf = true) (off : Nat) :
    (∃ r, check32 p off = .ok r) ↔
      (∃ r, off = regOffset r) ∨
        ∃ b, off % 4 = 0 ∧ inBuffer p b off = true ∧ inBuffer p b (off + 3) = true := by
  constructor
  · rintro ⟨r | b, hr⟩
    · exact .inl ⟨r, (check32_reg_iff p off r).1 hr⟩
    · exact .inr ⟨b, (check32_buf_iff h off b).1 hr⟩
  · rintro (⟨r, hr⟩ | ⟨b, hb⟩)
    · exact ⟨_, (check32_reg_iff p off r).2 hr⟩
    · exact ⟨_, (check32_buf_iff h off b).2 hb⟩

/-! ### Accesses -/

theorem memRead32_reg (r : Reg) (s : State) :
    memRead32 (regOffset r) s = .ok (readReg r s, afterRead (.reg r) s) := by
  simp [memRead32, check32_regOffset, Except.map, readRegion]

theorem memWrite32_reg (r : Reg) (v : Word) (s : State) : memWrite32 (regOffset r) v s = .ok (writeReg r v s) := by
  simp [memWrite32, check32_regOffset, writeRegion]

/-- A read leaves the state, or uses up one busy value. -/
theorem afterRead_cases (r : Region) (s : State) :
    afterRead r s = s ∨ (s.status.busy = true ∧ afterRead r s = drawBusyValue s) := by
  unfold afterRead readsFree
  cases hb : s.status.busy
  · simp
  · by_cases h : (r == Region.reg .outLen || r == .buf .out) = true
    · right; simp only [Bool.true_and, h, if_true, and_self]
    · left; simp only [Bool.true_and, h]; rfl

/-- A buffer write stores its bytes in IDLE and is the hazard in BUSY; it is never to OUT (R57 to R59). -/
theorem writeBuf_ok {b : Buffer} {off : Nat} {bs : List Byte} {s t : State} (h : writeBuf b off bs s = .ok t) :
    b ≠ .out ∧
      ((s.status.busy = false ∧ t = { s with mem := s.mem.store off bs }) ∨ (s.status.busy = true ∧ t = hazard s)) := by
  cases b with
  | out => simp [writeBuf] at h
  | pwd | inp =>
    simp only [writeBuf, Except.ok.injEq] at h
    subst h
    refine ⟨by simp, ?_⟩
    exact unlessBusy_cases _ s

/-- Everything a host access that is no bus error can do: it answers a read, having left the state or used up one busy value; or it writes
a register; or it writes bytes of PWD or IN. -/
theorem hostAccess_cases {a : Access} {s t : State} (h : hostAccess a s = .ok t) :
    (∃ (off : Nat) (b : Buffer), a = .read8 off ∧ check8 s.params off = .ok b ∧
      t = respond (.byte (readBuf8 b off s)) (afterRead (.buf b) s)) ∨
    (∃ (off : Nat) (r : Region), a = .read32 off ∧ check32 s.params off = .ok r ∧
      t = respond (.word (readRegion r off s)) (afterRead r s)) ∨
    (∃ (off : Nat) (v : Byte) (b : Buffer) (u : State), a = .write8 off v ∧ check8 s.params off = .ok b ∧
      writeBuf b off [v] s = .ok u ∧ t = respond .written u) ∨
    (∃ (r : Reg) (v : Word), a = .write32 (regOffset r) v ∧ t = respond .written (writeReg r v s)) ∨
    (∃ (off : Nat) (v : Word) (b : Buffer) (u : State), a = .write32 off v ∧ check32 s.params off = .ok (.buf b) ∧
      writeBuf b off (le32 v) s = .ok u ∧ t = respond .written u) := by
  cases a with
  | read8 off =>
    left
    cases hc : check8 s.params off with
    | error f => simp [hostAccess, memRead8, hc, Except.map] at h
    | ok b =>
      simp only [hostAccess, memRead8, hc, Except.map, Except.ok.injEq] at h
      exact ⟨off, b, rfl, hc, h.symm⟩
  | read32 off =>
    right; left
    cases hc : check32 s.params off with
    | error f => simp [hostAccess, memRead32, hc, Except.map] at h
    | ok r =>
      simp only [hostAccess, memRead32, hc, Except.map, Except.ok.injEq] at h
      exact ⟨off, r, rfl, hc, h.symm⟩
  | write8 off v =>
    right; right; left
    cases hc : check8 s.params off with
    | error f => simp [hostAccess, memWrite8, hc, Except.map] at h
    | ok b =>
      simp only [hostAccess, memWrite8, hc] at h
      cases hw : writeBuf b off [v] s with
      | error f => simp [hw, Except.map] at h
      | ok u =>
        simp only [hw, Except.map, Except.ok.injEq] at h
        exact ⟨off, v, b, u, rfl, hc, hw, h.symm⟩
  | write32 off v =>
    right; right; right
    cases hc : check32 s.params off with
    | error f => simp [hostAccess, memWrite32, hc, Except.map] at h
    | ok r =>
      cases r with
      | reg r =>
        left
        simp only [hostAccess, memWrite32, hc, writeRegion, Except.map, Except.ok.injEq] at h
        have := (check32_reg_iff _ _ _).1 hc
        subst this
        exact ⟨r, v, rfl, h.symm⟩
      | buf b =>
        right
        simp only [hostAccess, memWrite32, hc, writeRegion] at h
        cases hw : writeBuf b off (le32 v) s with
        | error f => simp [hw, Except.map] at h
        | ok u =>
          simp only [hw, Except.map, Except.ok.injEq] at h
          exact ⟨off, v, b, u, rfl, hc, hw, h.symm⟩

end Sys2Proof.Machine
end

