-- ==== Sys2Proof/Laws/Step.lean ====
section
/-! SUPPORT. What a command, an engine turn, a host turn and a step can do. -/

namespace Sys2Proof.Machine

/-! ### Commands -/

/-- The body of each command (the pseudocode of its rule). -/
def bodyOf : Instr → State → Except CmdError State
  | .encrypt => encryptBody Config.ports
  | .decrypt => decryptBody Config.ports
  | .verify => verifyBody Config.ports
  | .varint => varintBody
  | .deriveKey => deriveKeyBody Config.ports
  | .frame => frameBody
  | .unframe => unframeBody

/-- Whether the command zeroizes the password (43_cipher.md R127). -/
def zeroizesPassword : Instr → Bool
  | .encrypt | .decrypt | .deriveKey => true
  | .verify | .varint | .frame | .unframe => false

/-- Every command's engine step is its body under the common course of R156. -/
theorem exec_eq (i : Instr) (s : State) : exec i s = .next (runBody (zeroizesPassword i) (bodyOf i) s) := by
  cases i <;> rfl

theorem execIllegal_eq (s : State) :
    execIllegal s = .next (endCommand false (raiseError .illegalCommand (clearOut s))) := rfl

/-- A command that answers next has run its body. -/
theorem exec_next {i : Instr} {s t : State} (h : exec i s = .next t) : t = runBody (zeroizesPassword i) (bodyOf i) s := by
  rw [exec_eq] at h
  exact (Host.Outcome.next.inj h).symm

/-! ### Turns -/

/-- Everything an engine turn can do: nothing in IDLE; in BUSY the decoded command, or the illegal word's completion. -/
theorem engineTurn_cases (s : State) :
    (s.status.busy = false ∧ engineTurn s = .next s) ∨
      (s.status.busy = true ∧ ∃ i, decode s.cmd = .ok i ∧ engineTurn s = exec i s) ∨
        (s.status.busy = true ∧ ∃ e, decode s.cmd = .error e ∧ engineTurn s = execIllegal s) := by
  unfold engineTurn latchedCommand
  cases hb : s.status.busy
  · simp
  · cases hd : decode s.cmd with
    | ok i => simp
    | error e => simp

/-- A host line that is a WAIT reads STATUS and cannot be a bus error. -/
theorem runHostLine_wait (s : State) :
    runHostLine .wait s =
      .ok (respond (.word (statusWord s.status))
        (if waitDone (statusWord s.status) then s else { s with script := .wait :: s.script })) := by
  have h := memRead32_reg .status s
  have hs : regOffset .status = statusOffset := rfl
  have ha : afterRead (.reg .status) s = s := by simp [afterRead, readsFree]
  rw [hs, ha] at h
  simp only [runHostLine, h, Except.map, readReg]

/-- A host line that is a RESULT reads OUT_LEN and cannot be a bus error. -/
theorem runHostLine_result (s : State) :
    runHostLine .result s =
      .ok (respond (.word (readReg .outLen s))
        { afterRead (.reg .outLen) s with
          script := resultReads (readReg .outLen s) ++ (afterRead (.reg .outLen) s).script }) := by
  have h := memRead32_reg .outLen s
  have hs : regOffset .outLen = outLenOffset := rfl
  rw [hs] at h
  simp only [runHostLine, h, Except.map]

/-- Everything a host turn can do. -/
theorem hostTurn_cases (s : State) :
    (s.script = [] ∧ hostTurn s = .next s) ∨
      (∃ l rest, s.script = l :: rest ∧ ∃ t, runHostLine l { s with script := rest } = .ok t ∧ hostTurn s = .next t) ∨
        (∃ l rest, s.script = l :: rest ∧ ∃ f, runHostLine l { s with script := rest } = .error f ∧
          hostTurn s = .fault f) := by
  unfold hostTurn
  cases hs : s.script with
  | nil => simp
  | cons l rest =>
    cases hr : runHostLine l { s with script := rest } with
    | ok t => right; left; exact ⟨l, rest, rfl, t, hr, by simp [hr]⟩
    | error f => right; right; exact ⟨l, rest, rfl, f, hr, by simp [hr]⟩

/-- Everything a step can do: one turn of the agent that moves, on the state whose schedule has lost that turn. -/
theorem step_cases (s : State) :
    (whoMoves s = .host ∧ step s = hostTurn (takeTurn s)) ∨ (whoMoves s = .engine ∧ step s = engineTurn (takeTurn s)) ∨
      (whoMoves s = .reset ∧ step s = .next (platformReset (takeTurn s))) := by
  unfold step
  cases h : whoMoves s <;> simp [runTurn]

/-- A run whose first step answers next goes on from there. -/
theorem core_run_next {s t : State} (h : step s = .next t) (k : Nat) :
    Sys2Proof.core.run (k + 1) s = Sys2Proof.core.run k t := by
  have h' : Sys2Proof.core.step s = .next t := h
  simp only [Host.Core.run, h']

end Sys2Proof.Machine
end

