-- ==== Sys2Proof/Tests/Slice0.lean ====
section
/-! SUPPORT. My own tests: ill-formed terms refused, words written out from the spec's encoding, single steps against the spec's vectors
(95_test_vectors.md), and a witness for the hypotheses of each statement. -/

namespace Sys2Proof.Tests

open Sys2Proof.Machine Sys2Proof.Claims

/-! ## Well-formedness refuses -/

theorem test_wf_rsv_bit : ({ op := 1, rsv := 1 } : CmdFields).rsvOk = false := by decide
theorem test_wf_op_zero : ({ op := 0, rsv := 0 } : CmdFields).opOk = false := by decide
theorem test_wf_op_eight : ({ op := 8, rsv := 0 } : CmdFields).opOk = false := by decide
theorem test_wf_fields : ({ op := 8, rsv := 0 } : CmdFields).wf = false ∧ ({ op := 7, rsv := 0 } : CmdFields).wf = true := by decide
theorem test_wf_pwd_cap : ({ pwdCap := 0, inCap := 96 } : Params).pwdCapOk = false ∧
    ({ pwdCap := 257, inCap := 96 } : Params).pwdCapOk = false := by decide
theorem test_wf_in_cap_aligned : ({ pwdCap := 1, inCap := 97 } : Params).inCapAligned = false := by decide
theorem test_wf_in_cap_range : ({ pwdCap := 1, inCap := 64 } : Params).inCapInRange = false ∧
    ({ pwdCap := 1, inCap := 65472 } : Params).inCapInRange = false := by decide
theorem test_wf_smallest_and_largest :
    ({ pwdCap := 1, inCap := 96 } : Params).wf = true ∧ ({ pwdCap := 256, inCap := 65440 } : Params).wf = true := by decide

/-! ## Decoding: each word from R71's table, and the illegal words of 95_test_vectors.md 2.8 -/

theorem test_decode_encrypt : decode 0b00000000000000000000000000000001#32 = .ok .encrypt := by decide
theorem test_decode_decrypt : decode 0b00000000000000000000000000000010#32 = .ok .decrypt := by decide
theorem test_decode_verify : decode 0b00000000000000000000000000000011#32 = .ok .verify := by decide
theorem test_decode_varint : decode 0b00000000000000000000000000000100#32 = .ok .varint := by decide
theorem test_decode_deriveKey : decode 0b00000000000000000000000000000101#32 = .ok .deriveKey := by decide
theorem test_decode_frame : decode 0b00000000000000000000000000000110#32 = .ok .frame := by decide
theorem test_decode_unframe : decode 0b00000000000000000000000000000111#32 = .ok .unframe := by decide
theorem test_decode_zero : decode 0x00000000 = .error .opZero := by decide
theorem test_decode_op_fifteen : decode 0x0000000F = .error .opReserved := by decide
theorem test_decode_bit_four : decode 0x00000011 = .error .reservedBitsSet := by decide
theorem test_decode_bit_31 : decode 0x80000001 = .error .reservedBitsSet := by decide

/-! ## Single steps -/

/-- The next state, if there is one. -/
def nextState (o : Host.Outcome State Fault Refusal) : Option State :=
  match o with
  | .next t => some t
  | _ => none

/-- ERR_CODE, OUT_LEN and OUT of the next state. -/
def result (o : Host.Outcome State Fault Refusal) : Option (BitVec 4 × Nat × List Byte) :=
  (nextState o).map fun t => (t.errCode, t.outLen.toNat, resultBytes t)

/-- The reset state with IN holding `bs`. -/
def withInput (bs : List Byte) : State := { State.reset with mem := Memory.ofBytes inBase bs, inLen := BitVec.ofNat 32 bs.length }

/-- The reset state with a one-byte password in PWD. -/
def withPassword : State := { State.reset with mem := [(0x100, 0x70)], pwdLen := 1 }

/-- The reset state, running `w`. -/
def running (w : Word) : State := startCommand w State.reset

/-- V-VAR-1, R94: INDEX = -65. -/
theorem test_varint_minus_65 :
    result (exec .varint { State.reset with indexHi := 0xFFFFFFFF, indexLo := 0xFFFFFFBF }) = some (0, 2, [0x81, 0x01]) := by decide

/-- V-VAR-2: the lengths are not read. -/
theorem test_varint_ignores_lengths :
    result (exec .varint { State.reset with pwdLen := 0xFFFFFFFF, inLen := 0xFFFFFFFF }) = some (0, 1, [0x00]) := by decide

/-- V-FRM-2: "abc". -/
theorem test_frame_abc :
    result (exec .frame (withInput [0x61, 0x62, 0x63])) = some (0, 32, [3, 0, 0, 0, 0x61, 0x62, 0x63] ++ List.replicate 25 0) := by decide

/-- V-FRM-3: IN_LEN = IN_CAP + 1. -/
theorem test_frame_capacity : result (exec .frame { State.reset with inLen := 4097 }) = some (5, 0, []) := by decide

/-- V-UNF-1: the padding is not checked. -/
theorem test_unframe_abc :
    result (exec .unframe (withInput [3, 0, 0, 0, 0x61, 0x62, 0x63, 0xFF])) = some (0, 3, [0x61, 0x62, 0x63]) := by decide

/-- V-UNF-1: L = 1 does not fit a frame of 4 bytes. -/
theorem test_unframe_format : result (exec .unframe (withInput [1, 0, 0, 0])) = some (2, 0, []) := by decide

/-- R182: ENCRYPT on the reset values. -/
theorem test_encrypt_no_password : result (exec .encrypt State.reset) = some (1, 0, []) := by decide

/-- V-ENC-4: PWD_LEN = PWD_CAP + 1. -/
theorem test_encrypt_capacity : result (exec .encrypt { State.reset with pwdLen := 257 }) = some (5, 0, []) := by decide

/-- V-DEC-5: 63 bytes. -/
theorem test_decrypt_format : result (exec .decrypt { withPassword with inLen := 63 }) = some (2, 0, []) := by decide

/-- R127: the password is zeroized after an error too. -/
theorem test_decrypt_zeroizes :
    (nextState (exec .decrypt { withPassword with inLen := 63 })).map (fun t => (t.pwdLen, t.mem)) = some (0, []) := by decide

/-- V-VER-5: 63 bytes verify false, without an error. -/
theorem test_verify_malformed :
    (nextState (exec .verify { State.reset with inLen := 63 })).map (fun t => (t.errCode, t.status.vok, t.status.done)) =
      some (0, false, true) := by decide

/-- V-VER-6. -/
theorem test_verify_capacity : result (exec .verify { State.reset with inLen := 4097 }) = some (5, 0, []) := by decide

/-- V-KEY-5: IN_LEN = 31; and the first check wins. -/
theorem test_deriveKey_errors :
    result (exec .deriveKey { withPassword with inLen := 31 }) = some (2, 0, []) ∧
      result (exec .deriveKey { State.reset with inLen := 31 }) = some (1, 0, []) := by decide

/-- Ports for hand calculation: Digest(x) is len(x) in every byte, PasswordHash is 0x10 in every byte, DigestAdd adds byte by byte. -/
def handPorts : Ports where
  sha256 x := Vector.replicate 32 (BitVec.ofNat 8 x.length)
  passwordHash _ := Vector.replicate 32 0x10
  digestAdd a b := digestOfBytes (List.zipWith (· + ·) a.toList b.toList)

/-- R104 by hand: the key is 0x10 + 0x40 in every byte, the index buffer and the nonce digest being 64 bytes together. -/
theorem test_deriveBlockKey_by_hand :
    (deriveBlockKey handPorts (handPorts.passwordHash [0x70]) 1 zeroDigest).toList = List.replicate 32 0x50 := by decide

/-- R122 by hand: "abc" under the nonce 0; every key byte is 0x50, the checksum is of 64 bytes. -/
theorem test_encryptWith_by_hand :
    encryptWith handPorts [0x61, 0x62, 0x63] [0x70] zeroDigest =
      List.replicate 32 0x40 ++ List.replicate 32 0 ++ [0x53, 0x50, 0x50, 0x50, 0x31, 0x32, 0x33] ++ List.replicate 25 0x50 := by decide

/-- R123 by hand: that message decrypts to "abc"; with a changed checksum byte it gives INTEGRITY. -/
theorem test_decryptFn_by_hand :
    decryptFn handPorts (List.replicate 32 0x40 ++ List.replicate 32 0 ++ [0x53, 0x50, 0x50, 0x50, 0x31, 0x32, 0x33] ++
        List.replicate 25 0x50) [0x70] = .ok [0x61, 0x62, 0x63] ∧
      decryptFn handPorts (0x41 :: (List.replicate 31 0x40 ++ List.replicate 32 0 ++ [0x53, 0x50, 0x50, 0x50, 0x31, 0x32, 0x33] ++
        List.replicate 25 0x50)) [0x70] = .error .integrity := by decide

/-- 95_test_vectors.md 2.8: the illegal word completes with code 4, and the password stays. -/
theorem test_illegal_word :
    (nextState (step { withPassword with status := (running 0).status, cmd := 0x80000001 })).map
      (fun t => (t.errCode, t.pwdLen, t.mem, t.status.busy)) = some (4, 1, [(0x100, 0x70)], false) := by decide

/-- withFetchWord places the word that the next step runs. -/
theorem test_fetch_word : step (State.reset.withFetchWord 32 4) = exec .varint (running 4) := by rfl

/-! ## The window (95_test_vectors.md 2.9) -/

/-- V-WIN-1. -/
theorem test_win_status_after_reset : memRead32 0x008 State.reset = .ok (0, State.reset) := by rfl

/-- V-WIN-2 to V-WIN-5, V-WIN-10. -/
theorem test_win_bus_errors :
    check8 .default 0x008 = .error (.wrongWidth 0x008) ∧ check32 .default 0x20002 = .error (.misaligned 0x20002) ∧
      (memWrite8 0x20000 0x11 State.reset).isOk = false ∧ check32 .default 0x01C = .error (.unmapped 0x01C) ∧
      check32 { pwdCap := 254, inCap := 96 } 0x1FC = .error (.unmapped 0x1FC) := by decide

/-- V-WIN-6, V-WIN-7. -/
theorem test_win_buffers :
    ((memWrite8 0x100 0x70 State.reset).bind (memRead8 0x100)).toOption.map Prod.fst = some 0x00 ∧
      ((memWrite32 0x10000 0x00636261 State.reset).bind (memRead8 0x10001)).toOption.map Prod.fst = some 0x62 := by decide

/-- V-WIN-8, V-WIN-9. -/
theorem test_win_registers :
    ((memWrite32 0x000 0xFFFFFFFF State.reset).bind (memRead32 0x000)).toOption.map Prod.fst = some 0x00000001 ∧
      ((memWrite32 0x00C 5 State.reset).bind (memRead32 0x00C)).toOption.map Prod.fst = some 0 := by decide

/-- P5: an operand write while BUSY is dropped and sets HAZ. -/
theorem test_win_hazard :
    (memWrite32 0x020 0x40 (running 4)).toOption.map (fun t => (t.indexLo, t.status.haz)) = some (0, true) := by decide

/-- R80: SETPWD. -/
theorem test_script_setPwd :
    expandScript [.setPwd [0x70, 0x77], .start .varint] =
      [.access (.write8 0x100 0x70), .access (.write8 0x101 0x77), .access (.write32 0x010 2), .access (.write32 0x004 4)] := by decide

/-! ## A witness for the hypotheses of each statement, at the boundary values of its clauses -/

theorem witness_ResetTurnEntersResetState : whoMoves { running 4 with schedule := [.reset] } = .reset := by decide

theorem witness_DecodeMatchesWholeWords : (∃ i, decode 0x00000007 = .ok i) ∧ (∃ e, decode 0x00000008 = .error e) ∧
    (∃ e, decode 0x00000000 = .error e) ∧ ∃ e, decode 0x00000010 = .error e := ⟨⟨_, rfl⟩, ⟨_, rfl⟩, ⟨_, rfl⟩, ⟨_, rfl⟩⟩

theorem witness_DecodeInvertsEncode : Instr.encrypt.wf = true ∧ Instr.unframe.wf = true := by decide

theorem witness_StepRunsDecodedCommand : whoMoves (running 4) = .engine ∧ (running 4).status.busy = true ∧
    decode (running 4).cmd = .ok .varint ∧ Instr.varint.wf = true := by decide

theorem witness_TurnsFollowTheSchedule : ({ running 4 with schedule := [.host] } : State).schedule = .host :: [] ∧
    (running 4).schedule = [] ∧ (running 4).status.busy = true ∧ State.reset.status.busy = false ∧ State.reset.schedule = [] ∧
    State.reset.script = [] := by decide

theorem witness_EngineAlwaysCompletes : (running 4).params.wf = true ∧ (running 4).status.busy = true ∧
    (running 0).params.wf = true ∧ (running 0).status.busy = true := by decide

theorem witness_StepKeepsLegal : Legal (running 4) ∧ ∃ t, step (running 4) = .next t :=
  ⟨by constructor <;> decide, _, rfl⟩

theorem witness_ZigZagForms : 0 ≤ (0x7FFFFFFFFFFFFFFF : DWord).toInt ∧ ¬0 ≤ (0x8000000000000000 : DWord).toInt := by decide

theorem witness_LebFollowsItsLoop : 0x80 ≤ (0x80 : DWord).toNat ∧ ¬0x80 ≤ (0x7F : DWord).toNat := by decide

theorem witness_VarintLength : zigZag 0 = 0 ∧ zigZag (-1) ≠ 0 ∧ (zigZag 0x4000000000000000).toNat = 2 ^ 63 ∧
    Params.default.wf = true := by decide

theorem witness_VarintByteFormat : (encodeVarint 0).getD 0 0 = 0 ∧ (encodeVarint 0).length = 1 ∧
    (encodeVarint 0x8000000000000000).length = 10 := by decide

theorem witness_VarintIsUniquelyDecodable : encodeVarint 64 ++ [1] = encodeVarint 64 ++ [1] := rfl

theorem witness_IndexBufferLayout : 1 < (encodeVarint 64).length ∧ ¬2 < (encodeVarint 64).length := by decide

theorem witness_IndexSignedness : (0x7FFFFFFFFFFFFFFF : DWord).toNat < 2 ^ 63 ∧ 2 ^ 63 ≤ (0x8000000000000000 : DWord).toNat := by decide

/-- The operand checks pass for a password and an input of the largest sizes, and for a password of one byte and no input. -/
theorem witness_PasswordOperandsOk : PasswordOperandsOk { State.reset with pwdLen := 256, inLen := 4096 } ∧
    PasswordOperandsOk withPassword := by unfold PasswordOperandsOk; decide

theorem witness_DeriveKeyCompletes : State.reset.params.wf = true ∧ PasswordOperandsOk { withPassword with inLen := 32 } ∧
    ({ withPassword with inLen := 32 } : State).inLen = 32 := by unfold PasswordOperandsOk; decide

theorem witness_FrameLayout : ([0x61] : List Byte).length < 2 ^ 32 := by decide

theorem witness_BlockCountBounds : Params.wf { pwdCap := 256, inCap := 65440 } = true ∧ 65440 ≤ 65440 := by decide

theorem witness_UnframeRule : ([0, 0, 0] : List Byte).length < 4 ∧
    ([2, 0, 0, 0, 7] : List Byte).length - 4 < lengthField [2, 0, 0, 0, 7] ∧ 4 ≤ ([1, 0, 0, 0, 7] : List Byte).length ∧
    lengthField [1, 0, 0, 0, 7] ≤ ([1, 0, 0, 0, 7] : List Byte).length - 4 := by decide

theorem witness_UnframeIgnoresPadding : ([] : List Byte).length < 2 ^ 32 := by decide

theorem witness_UnframeInvertsFrame : Params.default.wf = true ∧ (zeros 32).length ≤ Params.default.inCap := by decide

theorem witness_FrameCompletes : State.reset.params.wf = true ∧
    ({ State.reset with inLen := 4096 } : State).inLen.toNat ≤ State.reset.params.inCap := by decide

theorem witness_UnframeCompletes : (withInput [1, 0, 0, 0, 7]).params.wf = true ∧
    (withInput [1, 0, 0, 0, 7]).inLen.toNat ≤ (withInput [1, 0, 0, 0, 7]).params.inCap ∧ 4 ≤ (withInput [1, 0, 0, 0, 7]).inLen.toNat ∧
    lengthField (inputBytes (withInput [1, 0, 0, 0, 7])) ≤ (withInput [1, 0, 0, 0, 7]).inLen.toNat - 4 := by decide

theorem witness_BlockXorLanes : (zeros 32).length = 32 := by decide

theorem witness_CipherLoopIsPerBlock : (zeros 64).length % 32 = 0 := by decide

theorem witness_EncryptWithLayout : ([0x70] : List Byte) ≠ [] ∧ ([] : List Byte).length < 2 ^ 32 := by decide

/-- 64 zero bytes are a well-formed message with a matching checksum under this port. -/
def zeroPorts : Ports where
  sha256 _ := zeroDigest
  passwordHash _ := zeroDigest
  digestAdd a _ := a

theorem witness_DecryptFnRule : WellFormedLength (zeros 64) ∧ ¬WellFormedLength (zeros 65) ∧ ¬WellFormedLength (zeros 63) ∧
    ChecksumHolds zeroPorts (zeros 64) ∧ ¬ChecksumHolds zeroPorts (1 :: zeros 63) ∧ ([0x70] : List Byte) ≠ [] := by
  refine ⟨⟨0, by decide⟩, ?_, ?_, by decide, by decide, by decide⟩
  · rintro ⟨k, h⟩
    simp only [zeros, List.length_replicate] at h
    omega
  · rintro ⟨k, h⟩
    simp only [zeros, List.length_replicate] at h
    omega

theorem witness_DecryptInvertsEncrypt : ([0x61] : List Byte).length < 2 ^ 32 ∧ ([0x70] : List Byte) ≠ [] := by decide

theorem witness_WrongPasswordIsNotIntegrity : ([0x70] : List Byte) ≠ [] ∧ (zeros 64).length = 64 + 32 * 0 ∧
    (zeros 96).length = 64 + 32 * 1 ∧ ChecksumHolds zeroPorts (zeros 64) ∧ ChecksumHolds zeroPorts (zeros 96) := by decide

theorem witness_TamperingNeedsACollision : WellFormedLength (zeros 64) ∧ (zeros 32 ++ 1 :: zeros 31).length = (zeros 64).length ∧
    zeros 64 ≠ zeros 32 ++ 1 :: zeros 31 ∧ verifyMessage zeroPorts (zeros 64) = true ∧
    verifyMessage zeroPorts (zeros 32 ++ 1 :: zeros 31) = true ∧
    (zeros 64).take 32 = (zeros 32 ++ 1 :: zeros 31).take 32 := ⟨⟨0, by decide⟩, by decide⟩

theorem witness_EncryptCompletes : withPassword.params.wf = true ∧ PasswordOperandsOk withPassword := by
  unfold PasswordOperandsOk; decide

theorem witness_RngRequestsAreExact : withPassword.params.wf = true ∧ PasswordOperandsOk withPassword ∧
    ¬PasswordOperandsOk State.reset := by unfold PasswordOperandsOk; decide

/-- A state whose IN holds the `n` bytes of `w`, with a one-byte password. -/
def withMessage (n : Word) (w : List Byte) : State :=
  { withPassword with mem := Memory.store [(0x100, 0x70)] inBase w, inLen := n }

theorem inputBytes_withMessage {n : Word} {w : List Byte} (h : w.length = n.toNat) : inputBytes (withMessage n w) = w := by
  have := readBytes_store [(0x100, 0x70)] inBase w
  rw [h] at this
  exact this

/-- Storing into IN leaves the password. -/
theorem passwordBytes_withMessage (n : Word) (w : List Byte) : passwordBytes (withMessage n w) = [0x70] := by
  show Memory.readBytes _ 0x100 1 = _
  simp only [withMessage, Memory.readBytes, List.range_one, List.map_cons, List.map_nil, read_store]
  rw [if_neg (by rw [inBase_eq]; omega)]
  rfl

theorem xorBytes_self (d : Digest) : xorBytes d.toList d.toList = zeros 32 := by
  apply List.ext_getElem (by simp [zeros])
  intro i h1 h2
  simp [xorBytes, zeros]

/-- A message of one block whose ciphertext is the keystream, so that the frame is all zero. -/
def zeroFrameMessage (P : Ports) (pw : List Byte) : List Byte :=
  let c := (deriveBlockKey P (P.passwordHash pw) 0 (P.sha256 (zeros 32))).toList
  (P.sha256 (zeros 32 ++ c)).toList ++ (zeros 32 ++ c)

theorem length_zeroFrameMessage (P : Ports) (pw : List Byte) : (zeroFrameMessage P pw).length = 96 := by
  simp [zeroFrameMessage, zeros]

theorem recoveredFrame_zeroFrameMessage (P : Ports) (pw : List Byte) : recoveredFrame P (zeroFrameMessage P pw) pw = zeros 32 := by
  have hn : ((zeroFrameMessage P pw).drop 32).take 32 = zeros 32 := by
    rw [zeroFrameMessage, List.drop_left' (by simp), List.take_left' (by simp [zeros])]
  have hc : (zeroFrameMessage P pw).drop 64 = (deriveBlockKey P (P.passwordHash pw) 0 (P.sha256 (zeros 32))).toList := by
    rw [zeroFrameMessage, ← List.append_assoc, List.drop_left' (by simp [zeros])]
  rw [recoveredFrame, hn, hc]
  simp only [keystreamXor, length_digest]
  rw [show (32 : Nat) / 32 = 1 from rfl, List.range_one, List.flatMap_singleton]
  rw [Nat.mul_zero, List.drop_zero, List.take_of_length_le (by simp)]
  exact xorBytes_self _

theorem checksumHolds_zeroFrameMessage (P : Ports) (pw : List Byte) : ChecksumHolds P (zeroFrameMessage P pw) := by
  unfold ChecksumHolds zeroFrameMessage
  rw [List.drop_left' (by simp), List.take_left' (by simp)]

theorem witness_DecryptCompletes : ∃ s : State, s.params.wf = true ∧ PasswordOperandsOk s ∧ s.inLen.toNat = 64 + 32 * 1 ∧
    ChecksumHolds Config.ports (inputBytes s) ∧
    lengthField (recoveredFrame Config.ports (inputBytes s) (passwordBytes s)) ≤ 32 * 1 - 4 := by
  refine ⟨withMessage 96 (zeroFrameMessage Config.ports [0x70]), rfl, ⟨?_, ?_, ?_⟩, rfl, ?_, ?_⟩
  · show (1 : Word) ≠ 0
    decide
  · show (1 : Word).toNat ≤ 256
    decide
  · show (96 : Word).toNat ≤ 4096
    decide
  · rw [inputBytes_withMessage (length_zeroFrameMessage _ _)]
    exact checksumHolds_zeroFrameMessage _ _
  · rw [inputBytes_withMessage (length_zeroFrameMessage _ _), passwordBytes_withMessage, recoveredFrame_zeroFrameMessage]
    decide

theorem witness_PasswordDoesNotPersist : usesPassword .deriveKey = true ∧ usesPassword .verify = false := by decide

theorem witness_EncryptedMessageDecryptsOnTheMachine : ∃ s t u : State, s.params.wf = true ∧ PasswordOperandsOk s ∧
    exec .encrypt s = .next t ∧ u.params.wf = true ∧ u.inLen = t.outLen ∧ u.inLen.toNat ≤ u.params.inCap ∧
    (∀ j, j < t.outLen.toNat → u.mem.read (inBase + j) = t.mem.read (outBase + j)) ∧ passwordBytes u = passwordBytes s ∧
    u.pwdLen.toNat ≤ u.params.pwdCap := by
  let r := encryptRun Config.ports (inputBytes withPassword) (passwordBytes withPassword) (nextNonce withPassword) .zero
  let t := endCommand true (completeOk (writeResult r.2 { drawNonce (clearOut withPassword) with dp := r.1 }))
  have hlen : t.outLen.toNat = 96 := by
    have h : r.2.length = 96 := by
      simp only [r, encryptRun, cipherBlocks, List.length_append, length_digest]
      rw [(cipherLoop_keeps _ _ _ _ _ (Nat.mul_div_le _ _)).2.2]
      rfl
    simp only [t, endCommand_outLen, completeOk_outLen, writeResult_outLen, h]
    rfl
  refine ⟨withPassword, t, withMessage t.outLen (t.mem.readBytes outBase 96), rfl, witness_EncryptCompletes.2, rfl,
    (by decide : Params.default.wf = true), rfl, ?_, ?_, ?_, ?_⟩
  · show t.outLen.toNat ≤ 4096
    omega
  · intro j hj
    rw [hlen] at hj
    simp only [withMessage, read_store, length_readBytes]
    rw [if_pos ⟨by omega, by omega⟩, Nat.add_sub_cancel_left, getD_readBytes _ _ _ _ hj]
  · exact passwordBytes_withMessage _ _
  · show (1 : Word).toNat ≤ 256
    decide

theorem witness_VerifyCompletes : State.reset.params.wf = true ∧
    ({ State.reset with inLen := 4096 } : State).inLen.toNat ≤ State.reset.params.inCap := by decide

theorem witness_VerifyAgreesWithDecrypt : ([0x70] : List Byte) ≠ [] ∧ verifyMessage zeroPorts (1 :: zeros 63) = false ∧
    verifyMessage zeroPorts (zeros 64) = true := by decide

/-- A message of 64 bytes whose checksum does not match, whatever the Digest is: one of two that differ in the checksum field alone. -/
theorem exists_unchecked (P : Ports) : ∃ w : List Byte, w.length = 64 ∧ ¬ChecksumHolds P w := by
  by_cases h : ChecksumHolds P (zeros 64)
  · refine ⟨1 :: zeros 63, by decide, fun h' => ?_⟩
    have : ((zeros 64).take 32 : List Byte) = (1 :: zeros 63).take 32 := h.symm.trans h'
    exact absurd this (by decide)
  · exact ⟨zeros 64, by decide, h⟩

theorem witness_FirstErrorIsReported :
    firstError .varint State.reset = none ∧ firstError .frame { State.reset with inLen := 4096 } = none ∧
    firstError .frame { State.reset with inLen := 4097 } = some .capacity ∧
    firstError .verify { State.reset with inLen := 4097 } = some .capacity ∧
    firstError .unframe { State.reset with inLen := 4097 } = some .capacity ∧
    firstError .unframe (withInput [1, 0, 0, 0]) = some .format ∧ firstError .unframe (withInput [0, 0, 0]) = some .format ∧
    firstError .encrypt { State.reset with inLen := 4097 } = some .invalidPassword ∧
    firstError .encrypt { State.reset with pwdLen := 257 } = some .capacity ∧ firstError .encrypt withPassword = none ∧
    firstError .deriveKey { withPassword with inLen := 31 } = some .format ∧
    firstError .deriveKey { withPassword with inLen := 32 } = none ∧
    firstError .decrypt { withPassword with inLen := 63 } = some .format ∧
    firstError .decrypt { withPassword with inLen := 4097 } = some .capacity := by
  refine ⟨rfl, rfl, rfl, rfl, rfl, rfl, rfl, rfl, rfl, rfl, rfl, rfl, rfl, rfl⟩

/-- DECRYPT's INTEGRITY, and its FORMAT for a message without a block. -/
theorem witness_FirstErrorIsReported_decrypt : ∃ s s' : State, s.params.wf = true ∧ s'.params.wf = true ∧
    firstError .decrypt s = some .integrity ∧ firstError .decrypt s' = some .format ∧ s'.inLen.toNat = 64 := by
  obtain ⟨w, hl, hw⟩ := exists_unchecked Config.ports
  let v : List Byte := (Config.ports.sha256 (zeros 32)).toList ++ zeros 32
  have hv : v.length = 64 := by simp [v, zeros]
  have hc : ChecksumHolds Config.ports v := by
    unfold ChecksumHolds
    simp only [v]
    rw [List.drop_left' (by simp), List.take_left' (by simp)]
  have h1 : ∀ x, (withMessage 64 x).pwdLen ≠ 0 ∧
      ¬((withMessage 64 x).params.pwdCap < (withMessage 64 x).pwdLen.toNat ∨
        (withMessage 64 x).params.inCap < (withMessage 64 x).inLen.toNat) ∧
      ¬((withMessage 64 x).inLen.toNat < 64 ∨ ((withMessage 64 x).inLen.toNat - 64) % 32 ≠ 0) := fun x => by
    show (1 : Word) ≠ 0 ∧ ¬(256 < (1 : Word).toNat ∨ 4096 < (64 : Word).toNat) ∧
      ¬((64 : Word).toNat < 64 ∨ ((64 : Word).toNat - 64) % 32 ≠ 0)
    decide
  refine ⟨withMessage 64 w, withMessage 64 v, (by decide : Params.default.wf = true), (by decide : Params.default.wf = true), ?_, ?_, rfl⟩
  · simp only [firstError]
    rw [if_neg (h1 w).1, if_neg (h1 w).2.1, if_neg (h1 w).2.2, inputBytes_withMessage hl, if_pos hw]
  · simp only [firstError]
    rw [if_neg (h1 v).1, if_neg (h1 v).2.1, if_neg (h1 v).2.2, inputBytes_withMessage hv, if_neg (not_not.2 hc), if_pos (.inl rfl)]

theorem witness_ErrorsArePrecise : State.reset.params.wf = true ∧ firstError .encrypt State.reset = some .invalidPassword ∧
    usesPassword .encrypt = true ∧ firstError .frame { State.reset with inLen := 4097 } = some .capacity ∧
    usesPassword .frame = false := ⟨rfl, rfl, rfl, rfl, rfl⟩

theorem witness_IllegalWordCompletes : whoMoves (running 0x80000001) = .engine ∧ (running 0x80000001).status.busy = true ∧
    (running 0x10).cmd.toNat / 16 ≠ 0 ∧ (running 0).cmd.toNat % 16 = 0 ∧ 8 ≤ (running 8).cmd.toNat % 16 := by decide

/-- The reset state with one host access to do. -/
def accessing (a : Access) : State := { State.reset with script := [.access a] }

theorem witness_BusErrorsAreExact : (accessing (.read32 0x024)).params.wf = true ∧ whoMoves (accessing (.read32 0x024)) = .host ∧
    (accessing (.read32 0x024)).script = .access (.read32 0x024) :: [] := by decide

/-- The boundaries of what is allowed, for each kind of access. -/
theorem witness_BusErrorsAreExact_boundaries :
    AccessAllowed .default (.read32 0x018) ∧ ¬AccessAllowed .default (.read32 0x01C) ∧ AccessAllowed .default (.read32 0x024) ∧
    ¬AccessAllowed .default (.read32 0x028) ∧ ¬AccessAllowed .default (.read8 0x024) ∧
    AccessAllowed .default (.read8 0x1FF) ∧ ¬AccessAllowed .default (.read8 0x200) ∧ AccessAllowed .default (.write8 0x10FFF 1) ∧
    ¬AccessAllowed .default (.write8 0x11000 1) ∧ AccessAllowed .default (.read32 0x2105C) ∧
    ¬AccessAllowed .default (.read32 0x21060) ∧ ¬AccessAllowed .default (.write32 0x20000 0) ∧
    ¬AccessAllowed .default (.read32 0x10001) := by
  norm_num [AccessAllowed, RegisterByte, Within, Params.default, pwdBase_eq, inBase_eq, outBase_eq]

theorem witness_OnlyBusErrorsStop : State.reset.params.wf = true ∧ ∃ f, step (accessing (.read32 0x01C)) = .fault f := ⟨rfl, _, rfl⟩

theorem witness_InputWordsAreLittleEndian : State.reset.params.wf = true ∧ State.reset.status.busy = false ∧ 4092 % 4 = 0 ∧
    4092 + 4 ≤ State.reset.params.inCap := by decide

theorem witness_PasswordReadsAsZero : (running 4).params.wf = true ∧ 252 < (running 4).params.pwdCap ∧ 252 % 4 = 0 ∧
    252 + 4 ≤ (running 4).params.pwdCap ∧ (running 4).status.busy = true ∧ State.reset.status.busy = false := by decide

theorem witness_OutputAccess : (running 4).params.wf = true ∧ 4191 < outCap (running 4).params ∧ 4188 % 4 = 0 ∧
    4188 + 4 ≤ outCap (running 4).params ∧ (running 4).status.busy = true ∧ State.reset.status.busy = false := by decide

theorem witness_InputAccess : (running 4).params.wf = true ∧ 4095 < (running 4).params.inCap ∧ 4092 % 4 = 0 ∧
    4092 + 4 ≤ (running 4).params.inCap ∧ (running 4).status.busy = true ∧ State.reset.status.busy = false := by decide

theorem witness_ResultRegisters : State.reset.status.busy = false := by decide

theorem witness_BusyReads : Legal (running 4) ∧ (running 4).status.busy = true := ⟨by constructor <;> decide, rfl⟩

theorem witness_BusyWritesAreHazards : (running 4).params.wf = true ∧ (running 4).status.busy = true ∧
    Within 0x1FF 1 pwdBase 256 ∧ Within 0x10000 1 inBase 4096 ∧ Within 0x10FFC 4 inBase 4096 := by unfold Within; decide

theorem witness_CommandStart : State.reset.status.busy = false := by decide

theorem witness_IdleRegisterWrites : State.reset.status.busy = false := by decide

theorem witness_InterruptOutput : (running 4).status.busy = true ∧ (0x2 : Word).getLsbD 1 = true ∧ (0x2 : Word).getLsbD 0 = false ∧
    State.reset.status.busy = false := by decide

theorem witness_ReadsHaveNoSideEffect : (∃ t, hostAccess (.read8 0x20000) (running 4) = .ok t) ∧
    ∃ t, hostAccess (.read32 0x018) (running 4) = .ok t := ⟨⟨_, rfl⟩, _, rfl⟩

theorem witness_ResultsLastUntilTheNextStart : State.reset.params.wf = true ∧
    (∃ t, hostAccess (.write32 0x008 2) State.reset = .ok t) ∧ (∃ t, hostAccess (.write32 0x004 4) (running 4) = .ok t) ∧
    (running 4).status.busy = true := ⟨rfl, ⟨_, rfl⟩, ⟨_, rfl⟩, rfl⟩

theorem witness_PasswordBytesStaySecret : (running 4).params.wf = true ∧
    AgreeExceptPassword (running 4) { running 4 with mem := [(0x100, 0x70)] } ∧ decode (running 4).cmd = .ok .varint ∧
    usesPassword .varint = false := by
  refine ⟨rfl, ⟨rfl, fun a ha => ?_⟩, rfl, rfl⟩
  show Memory.read [(0x100, 0x70)] a = Memory.read [] a
  rw [read_cons, if_neg]
  rintro rfl
  exact ha ⟨by decide, by decide⟩

theorem witness_WaitEnds : ({ running 4 with script := [.wait], schedule := [.host] } : State).status.busy = true ∧
    ({ running 4 with script := [.wait], schedule := [.host] } : State).schedule = List.replicate 1 Turn.host := by decide

end Sys2Proof.Tests
end

