-- ==== Sys2Proof/Proofs/State.lean ====
section
/-! PROOFS. The statements about the state after reset (10_state.md R40) and the interrupt output (R38, R162). -/

namespace Sys2Proof.Machine

/-! ### The reset state -/

/-- No flag set makes no bit of STATUS (R25). -/
@[simp] theorem statusWord_zero : statusWord .zero = 0 := by decide

/-- The registers made from flags read 0 because their flags are clear; the others hold the zero word itself. -/
theorem readReg_resetWith (p : Params) (r : Reg) : readReg r (State.resetWith p) = 0 := by
  cases r with
  | status => exact statusWord_zero
  | ctrl | cmd | errCode | pwdLen | inLen | outLen | indexLo | indexHi => rfl

/-- Settles O1: each part is read off `State.resetWith`, the registers one by one. -/
theorem resetStateIsZero : Obligations.ResetStateIsZero := fun p =>
  ⟨rfl, readReg_resetWith p, read_nil, rfl, rfl, rfl⟩

/-! ### What a command's body writes -/

/-- Everything a body that raises no error can do: it writes a result, having loaded the datapath; ENCRYPT makes one draw besides; VERIFY
returns VOK alone. -/
theorem bodyOf_ok_cases {i : Instr} {s t : State} (h : bodyOf i s = .ok t) :
    (∃ dp bs, t = writeResult bs { s with dp := dp }) ∨
      (i = .encrypt ∧ ∃ dp bs, t = writeResult bs { drawNonce s with dp := dp }) ∨
        (i = .verify ∧ ∃ ok, t = { s with outLen := 0, status := { s.status with vok := ok } }) := by
  cases i with
  | encrypt =>
    simp only [bodyOf, encryptBody] at h
    split at h <;> cases h
    exact .inr (.inl ⟨rfl, _, _, rfl⟩)
  | decrypt =>
    simp only [bodyOf, decryptBody] at h
    split at h
    · cases h
    · split at h <;> cases h
      exact .inl ⟨_, _, rfl⟩
  | verify =>
    simp only [bodyOf, verifyBody] at h
    split at h <;> cases h
    exact .inr (.inr ⟨rfl, _, rfl⟩)
  | varint =>
    cases h
    exact .inl ⟨s.dp, _, rfl⟩
  | deriveKey =>
    simp only [bodyOf, deriveKeyBody] at h
    split at h
    · cases h
    · split at h <;> cases h
      exact .inl ⟨_, _, rfl⟩
  | frame =>
    simp only [bodyOf, frameBody] at h
    split at h <;> cases h
    exact .inl ⟨_, _, rfl⟩
  | unframe =>
    simp only [bodyOf, unframeBody] at h
    split at h
    · cases h
    · split at h <;> cases h
      exact .inl ⟨s.dp, _, rfl⟩

/-- No body writes CTRL. -/
theorem bodyOf_ctrlIE {i : Instr} {s t : State} (h : bodyOf i s = .ok t) : t.ctrlIE = s.ctrlIE := by
  obtain ⟨dp, bs, rfl⟩ | ⟨-, dp, bs, rfl⟩ | ⟨-, ok, rfl⟩ := bodyOf_ok_cases h <;> rfl

/-! ### The interrupt output -/

/-- The common end of a command sets DONE, so IRQ is IE after it (R156, R38). -/
theorem irq_endCommand (pw : Bool) (s : State) : (endCommand pw s).irq = s.ctrlIE := by
  simp [State.irq]

/-- After a command, completed or in error, IRQ is the IE it started with. -/
theorem irq_runBody_bodyOf (pw : Bool) (i : Instr) (s : State) : (runBody pw (bodyOf i) s).irq = s.ctrlIE := by
  obtain ⟨t, hbody, hrun⟩ | ⟨e, -, hrun⟩ := runBody_cases pw (bodyOf i) s
  · rw [hrun, irq_endCommand, completeOk_ctrlIE, bodyOf_ctrlIE hbody, clearOut_ctrlIE]
  · rw [hrun, irq_endCommand, raiseError_ctrlIE, clearOut_ctrlIE]

/-- A BUSY engine's turn completes whatever word is latched, and leaves IRQ at IE. -/
theorem engineTurn_irq {s : State} (hbusy : s.status.busy = true) : ∃ t, engineTurn s = .next t ∧ t.irq = s.ctrlIE := by
  obtain ⟨hidle, -⟩ | ⟨-, i, -, hturn⟩ | ⟨-, e, -, hturn⟩ := engineTurn_cases s
  · simp [hidle] at hbusy
  · exact ⟨_, hturn.trans (exec_eq i s), irq_runBody_bodyOf _ i s⟩
  · exact ⟨_, hturn.trans (execIllegal_eq s), irq_endCommand _ _⟩

/-- A STATUS write with bit 1 set clears DONE, and IRQ with it. -/
theorem irq_writeStatus {v : Word} (h : v.getLsbD 1 = true) (s : State) : (writeStatus v s).irq = false := by
  simp [State.irq, h]

/-- A CTRL write with bit 0 clear clears IE, and IRQ with it, in every phase (R23). -/
theorem irq_writeReg_ctrl {v : Word} (h : v.getLsbD 0 = false) (s : State) : (writeReg .ctrl v s).irq = false := by
  simp only [State.irq, writeReg, ieAfterWrite, h, Bool.and_false]

/-- An accepted CMD write is a start, which clears DONE, and IRQ with it (R157). -/
theorem irq_writeReg_cmd {s : State} (hidle : s.status.busy = false) (v : Word) : (writeReg .cmd v s).irq = false := by
  rw [writeReg, unlessBusy_idle hidle]
  simp [State.irq]

/-- Settles O54: a completion sets DONE and no body writes CTRL; each of the three writes clears DONE or IE. -/
theorem interruptOutput : Obligations.InterruptOutput :=
  ⟨fun _ => rfl,
    fun _ hbusy => engineTurn_irq hbusy,
    fun s v h => ⟨_, memWrite32_reg .status v s, irq_writeStatus h s⟩,
    fun s v h => ⟨_, memWrite32_reg .ctrl v s, irq_writeReg_ctrl h s⟩,
    fun s v hidle => ⟨_, memWrite32_reg .cmd v s, irq_writeReg_cmd hidle v⟩,
    rfl⟩

end Sys2Proof.Machine
end

