-- ==== Sys2Proof/Proofs/Memory.lean ====
section
/-! PROOFS. The statements about the host's accesses to PWD and IN (20_memory.md R55, R57, R58). -/

namespace Sys2Proof.Machine

/-! ### Byte order -/

/-- `le32` puts the byte of weight 256^j at offset `j` (R13). -/
theorem toNat_getD_le32 (v : Word) {j : Nat} (hj : j < 4) : ((le32 v).getD j 0).toNat = v.toNat / 256 ^ j % 256 := by
  have hbyte (k : Nat) : (v.extractLsb' k 8).toNat = v.toNat / 2 ^ k % 256 := by
    rw [BitVec.extractLsb'_toNat, Nat.shiftRight_eq_div_pow]
  match j with
  | 0 => exact hbyte 0
  | 1 => exact hbyte 8
  | 2 => exact hbyte 16
  | 3 => exact hbyte 24

/-- The value of a little-endian word, from its four bytes (R55). -/
theorem toNat_wordOfLe (bs : List Byte) :
    (wordOfLe bs).toNat = (bs.getD 0 0).toNat + 256 * ((bs.getD 1 0).toNat + 256 * ((bs.getD 2 0).toNat +
      256 * (bs.getD 3 0).toNat)) := by
  simp only [wordOfLe, BitVec.toNat_append, Nat.shiftLeft_eq, ← Nat.two_pow_add_eq_or_of_lt (BitVec.isLt _), mul_comm _ (2 ^ 8)]
  ring

/-- Byte `j` of a little-endian word is the byte at offset `j` (R55). -/
theorem toNat_wordOfLe_div_mod (bs : List Byte) {j : Nat} (hj : j < 4) :
    (wordOfLe bs).toNat / 256 ^ j % 256 = (bs.getD j 0).toNat := by
  have hbyte (k : Nat) : (bs.getD k 0).toNat < 256 := (bs.getD k 0).isLt
  have h0 := hbyte 0
  have h1 := hbyte 1
  have h2 := hbyte 2
  have h3 := hbyte 3
  rw [toNat_wordOfLe]
  interval_cases j <;> omega

/-! ### The access checks inside a buffer -/

/-- Every buffer starts at an aligned offset, so alignment in the window is alignment in the buffer. -/
theorem bufBase_mod_four (b : Buffer) : bufBase b % 4 = 0 := by
  cases b <;> rfl

theorem inBuffer_bufBase_add {p : Params} {b : Buffer} {o : Nat} (ho : o < bufCap p b) : inBuffer p b (bufBase b + o) = true :=
  (inBuffer_iff p b _).2 ⟨Nat.le_add_right _ _, Nat.add_lt_add_left ho _⟩

theorem check8_bufBase_add {p : Params} (hp : p.wf = true) {b : Buffer} {o : Nat} (ho : o < bufCap p b) :
    check8 p (bufBase b + o) = .ok b :=
  (check8_ok_iff hp _ b).2 (inBuffer_bufBase_add ho)

theorem check32_bufBase_add {p : Params} (hp : p.wf = true) {b : Buffer} {o : Nat} (hal : o % 4 = 0) (ho : o + 4 ≤ bufCap p b) :
    check32 p (bufBase b + o) = .ok (.buf b) := by
  have halign : (bufBase b + o) % 4 = 0 := by rw [Nat.add_mod, bufBase_mod_four, hal]
  exact (check32_buf_iff hp _ b).2 ⟨halign, inBuffer_bufBase_add (by omega), inBuffer_bufBase_add (o := o + 3) (by omega)⟩

/-! ### Reads of PWD and IN -/

/-- Only a read of OUT uses up a busy value; a read of another buffer changes nothing (R60). -/
theorem afterRead_buf {b : Buffer} (hb : b ≠ .out) (s : State) : afterRead (.buf b) s = s := by
  simp [afterRead, readsFree, hb]

/-- A 1-byte read of PWD or IN, in every phase. -/
theorem memRead8_buf {s : State} {off : Nat} {b : Buffer} (hcheck : check8 s.params off = .ok b) (hb : b ≠ .out) :
    memRead8 off s = .ok (readBuf8 b off s, s) := by
  rw [memRead8, hcheck, Except.map, afterRead_buf hb]

/-- A 4-byte read of PWD or IN, in every phase. -/
theorem memRead32_buf {s : State} {off : Nat} {b : Buffer} (hcheck : check32 s.params off = .ok (.buf b)) (hb : b ≠ .out) :
    memRead32 off s = .ok (readBuf32 b off s, s) := by
  rw [memRead32, hcheck, Except.map, afterRead_buf hb, readRegion]

/-- A 4-byte read of IN gives the little-endian word of its bytes, in every phase (R55, R58). -/
theorem memRead32_inp {s : State} {off : Nat} (hcheck : check32 s.params off = .ok (.buf .inp)) :
    ∃ x, memRead32 off s = .ok (x, s) ∧ ∀ j, j < 4 → x.toNat / 256 ^ j % 256 = (s.mem.read (off + j)).toNat := by
  refine ⟨wordOfLe (s.mem.readBytes off 4), memRead32_buf hcheck (by decide), fun j hj => ?_⟩
  rw [toNat_wordOfLe_div_mod _ hj, getD_readBytes _ _ _ _ hj]

/-! ### Writes of PWD and IN -/

/-- The bytes of PWD and IN are written unless the engine is BUSY. -/
theorem writeBuf_eq {b : Buffer} (hb : b ≠ .out) (off : Nat) (bs : List Byte) (s : State) :
    writeBuf b off bs s = .ok (unlessBusy (fun t => { t with mem := t.mem.store off bs }) s) := by
  cases b with
  | pwd | inp => rfl
  | out => exact absurd rfl hb

/-- A write of PWD or IN in full: it is no bus error; in IDLE it stores its bytes and nothing else; while BUSY it sets HAZ and nothing else
(R57, R58, R184). -/
theorem writeBuf_spec {b : Buffer} (hb : b ≠ .out) (off : Nat) (bs : List Byte) (s : State) :
    ∃ t, writeBuf b off bs s = .ok t ∧
      (s.status.busy = false → t = { s with mem := t.mem } ∧
        (∀ j, j < bs.length → t.mem.read (off + j) = bs.getD j 0) ∧
        ∀ a, ¬(off ≤ a ∧ a < off + bs.length) → t.mem.read a = s.mem.read a) ∧
      (s.status.busy = true → t = { s with status := { s.status with haz := true } }) := by
  refine ⟨_, writeBuf_eq hb off bs s, fun hidle => ?_, fun hbusy => unlessBusy_busy hbusy⟩
  rw [unlessBusy_idle hidle]
  refine ⟨rfl, fun j hj => ?_, fun a ha => ?_⟩
  · rw [read_store, if_pos ⟨Nat.le_add_right _ _, Nat.add_lt_add_left hj _⟩, Nat.add_sub_cancel_left]
  · rw [read_store, if_neg ha]

theorem memWrite8_buf {s : State} {off : Nat} {b : Buffer} (hcheck : check8 s.params off = .ok b) (v : Byte) :
    memWrite8 off v s = writeBuf b off [v] s := by
  simp only [memWrite8, hcheck]

theorem memWrite32_buf {s : State} {off : Nat} {b : Buffer} (hcheck : check32 s.params off = .ok (.buf b)) (w : Word) :
    memWrite32 off w s = writeBuf b off (le32 w) s := by
  simp only [memWrite32, hcheck, writeRegion]

/-- A 1-byte write of PWD or IN: one byte changes in IDLE, and HAZ alone while BUSY. -/
theorem memWrite8_buf_spec {s : State} {off : Nat} {b : Buffer} (hcheck : check8 s.params off = .ok b) (hb : b ≠ .out) (v : Byte) :
    ∃ t, memWrite8 off v s = .ok t ∧
      (s.status.busy = false → t = { s with mem := t.mem } ∧ t.mem.read off = v ∧
        ∀ a, a ≠ off → t.mem.read a = s.mem.read a) ∧
      (s.status.busy = true → t = { s with status := { s.status with haz := true } }) := by
  obtain ⟨t, hwrite, hidle, hbusy⟩ := writeBuf_spec hb off [v] s
  refine ⟨t, (memWrite8_buf hcheck v).trans hwrite, fun h => ?_, hbusy⟩
  obtain ⟨hframe, hbytes, hrest⟩ := hidle h
  refine ⟨hframe, hbytes 0 Nat.one_pos, fun a ha => hrest a ?_⟩
  simp only [List.length_singleton]
  omega

/-- A 4-byte write of PWD or IN: four bytes change in IDLE, least significant first (R55), and HAZ alone while BUSY. -/
theorem memWrite32_buf_spec {s : State} {off : Nat} {b : Buffer} (hcheck : check32 s.params off = .ok (.buf b)) (hb : b ≠ .out)
    (w : Word) :
    ∃ t, memWrite32 off w s = .ok t ∧
      (s.status.busy = false → t = { s with mem := t.mem } ∧
        (∀ j, j < 4 → (t.mem.read (off + j)).toNat = w.toNat / 256 ^ j % 256) ∧
        ∀ a, ¬(off ≤ a ∧ a < off + 4) → t.mem.read a = s.mem.read a) ∧
      (s.status.busy = true → t = { s with status := { s.status with haz := true } }) := by
  obtain ⟨t, hwrite, hidle, hbusy⟩ := writeBuf_spec hb off (le32 w) s
  refine ⟨t, (memWrite32_buf hcheck w).trans hwrite, fun h => ?_, hbusy⟩
  obtain ⟨hframe, hbytes, hrest⟩ := hidle h
  refine ⟨hframe, fun j hj => ?_, hrest⟩
  rw [hbytes j hj, toNat_getD_le32 w hj]

/-! ### The statements -/

/-- Settles O47: every access inside PWD passes its check; a read answers the constant of R57, a write is a buffer write. -/
theorem passwordReadsAsZero : Obligations.PasswordReadsAsZero := by
  intro s o v w hp ho
  have hbyte : check8 s.params (pwdBase + o) = .ok .pwd := check8_bufBase_add (b := .pwd) hp ho
  have hword (hal : o % 4 = 0) (ho : o + 4 ≤ s.params.pwdCap) : check32 s.params (pwdBase + o) = .ok (.buf .pwd) :=
    check32_bufBase_add (b := .pwd) hp hal ho
  have hpwd : Buffer.pwd ≠ .out := by decide
  exact ⟨memRead8_buf hbyte hpwd,
    fun hal ho => memRead32_buf (hword hal ho) hpwd,
    memWrite8_buf_spec hbyte hpwd v,
    fun hal ho => memWrite32_buf_spec (hword hal ho) hpwd w⟩

/-- Settles O59: every access inside IN passes its check; a read answers the bytes of the store, a write is a buffer write. -/
theorem inputAccess : Obligations.InputAccess := by
  intro s o v w hp ho
  have hbyte : check8 s.params (inBase + o) = .ok .inp := check8_bufBase_add (b := .inp) hp ho
  have hinp : Buffer.inp ≠ .out := by decide
  refine ⟨memRead8_buf hbyte hinp, memWrite8_buf_spec hbyte hinp v, fun hal ho => ?_⟩
  have hword : check32 s.params (inBase + o) = .ok (.buf .inp) :=
    check32_bufBase_add (b := .inp) hp hal ho
  exact ⟨memRead32_inp hword, memWrite32_buf_spec hword hinp w⟩

end Sys2Proof.Machine
end

