-- ==== Sys2Proof/Proofs/Encoding.lean ====
section
/-! PROOFS. The statements about the command word, the varint bytes and the index buffer (30_encoding.md R70 to R72, R77, R78). -/

namespace Sys2Proof.Machine

/-! ### The command word -/

/-- A word is its two fields put together (R70). -/
theorem cmdWord_cmdFields (w : Word) : cmdWord (cmdFields w) = w := by
  refine BitVec.eq_of_toNat_eq ?_
  rw [cmdWord, cmdFields, BitVec.toNat_append, Nat.shiftLeft_eq, Nat.mul_comm, ← Nat.two_pow_add_eq_or_of_lt (BitVec.isLt _),
    BitVec.extractLsb'_toNat, BitVec.extractLsb'_toNat]
  omega

/-- The fields of a word put together are the fields it was made of (R70). -/
theorem cmdFields_cmdWord (f : CmdFields) : cmdFields (cmdWord f) = f := by
  cases f
  rw [cmdFields, cmdWord, CmdFields.mk.injEq]
  exact ⟨BitVec.extractLsb'_append_eq_right, BitVec.extractLsb'_append_eq_left⟩

/-- OP is the low four bits of the word (R70). -/
theorem toNat_op (w : Word) : (cmdFields w).op.toNat = w.toNat % 16 := by
  rw [cmdFields, BitVec.extractLsb'_toNat, Nat.shiftRight_zero]

/-- RSV is 0 exactly for the words below 16 (R70). -/
theorem rsv_eq_zero_iff (w : Word) : (cmdFields w).rsv = 0 ↔ w.toNat < 16 := by
  rw [cmdFields, ← BitVec.toNat_inj, BitVec.extractLsb'_toNat, Nat.shiftRight_eq_div_pow]
  have hw := w.isLt
  simp only [BitVec.ofNat_eq_ofNat, BitVec.toNat_ofNat]
  omega

/-- The opcode map has one OP value for each command (R71). -/
theorem instrOfOp_eq_ok_iff (op : BitVec 4) (i : Instr) : instrOfOp op = .ok i ↔ op = opOfInstr i := by
  cases i <;> revert op <;> decide

/-- The OP values that select nothing (R72). -/
theorem instrOfOp_error_iff (op : BitVec 4) : (∃ e, instrOfOp op = .error e) ↔ op.toNat = 0 ∨ 8 ≤ op.toNat := by
  have hok : (instrOfOp op).isOk = false ↔ op.toNat = 0 ∨ 8 ≤ op.toNat := by
    revert op
    decide
  rw [← hok]
  cases instrOfOp op <;> simp [Except.isOk, Except.toBool]

/-- A command is decoded exactly from its own word, compared whole (R71). -/
theorem decode_eq_ok_iff (w : Word) (i : Instr) : decode w = .ok i ↔ w = encode i := by
  have hfields : w = encode i ↔ (cmdFields w).rsv = 0 ∧ (cmdFields w).op = opOfInstr i := by
    constructor
    · rintro rfl
      rw [encode, cmdFields_cmdWord]
      exact ⟨rfl, rfl⟩
    · rintro ⟨hrsv, hop⟩
      rw [encode, ← hrsv, ← hop]
      exact (cmdWord_cmdFields w).symm
  rw [hfields, decode]
  split
  next hrsv => rw [instrOfOp_eq_ok_iff, and_iff_right hrsv]
  next hrsv => exact iff_of_false nofun fun h => hrsv h.1

/-- A word is illegal for its OP or for its RSV (R72). -/
theorem decode_error_iff (w : Word) :
    (∃ e, decode w = .error e) ↔ w.toNat % 16 = 0 ∨ 8 ≤ w.toNat % 16 ∨ 16 ≤ w.toNat := by
  rw [decode]
  split
  next hrsv =>
    have hlt := (rsv_eq_zero_iff w).1 hrsv
    rw [instrOfOp_error_iff, toNat_op]
    omega
  next hrsv =>
    have hle : 16 ≤ w.toNat := Nat.le_of_not_lt (mt (rsv_eq_zero_iff w).2 hrsv)
    exact iff_of_true ⟨_, rfl⟩ (.inr (.inr hle))

/-- Settles O3: the words of the table are the encoder's, and the illegal words are read off the two fields. -/
theorem decodeMatchesWholeWords : Obligations.DecodeMatchesWholeWords := by
  refine ⟨fun w i => ?_, decode_error_iff⟩
  rw [decode_eq_ok_iff]
  cases i <;> rfl

/-! ### The bytes of a varint -/

/-- The loop ends at a value that fits seven bits (R91). -/
theorem lebGo_of_lt {u : DWord} (h : u.toNat < 128) (n : Nat) : lebGo n u = [u.setWidth 8] := by
  cases n with
  | zero => rfl
  | succ n => exact if_neg (BitVec.not_le.2 h)

/-- A value below 128 is its own one byte (R91). -/
theorem lebGo_of_lt_spec {u : DWord} (h : u.toNat < 128) (n : Nat) :
    (lebGo n u).length = 1 ∧ ((lebGo n u).getD 0 0).toNat = u.toNat := by
  rw [lebGo_of_lt h]
  refine ⟨rfl, ?_⟩
  rw [List.getD_cons_zero, BitVec.toNat_setWidth]
  omega

/-- The loop emits a continuation byte and goes on with what is left (R91). -/
theorem lebGo_succ_of_le {u : DWord} (h : 128 ≤ u.toNat) (n : Nat) :
    lebGo (n + 1) u = (u.setWidth 8 ||| 0x80) :: lebGo n (u >>> 7) := if_pos h

/-- What is left of a value after its low seven bits. -/
theorem toNat_ushiftRight_seven (u : DWord) : (u >>> 7).toNat = u.toNat / 128 := by
  rw [BitVec.toNat_ushiftRight, Nat.shiftRight_eq_div_pow]

/-- Group j + 1 of a value is group j of the value without its low seven bits. -/
theorem div_two_pow_seven_mul_succ (x j : Nat) : x / 2 ^ (7 * (j + 1)) = x / 128 / 2 ^ (7 * j) := by
  rw [Nat.div_div_eq_div_mul, Nat.mul_succ, Nat.add_comm, Nat.pow_add]

/-- Setting bit 7 of a byte keeps its low seven bits. -/
theorem toNat_or_0x80 : ∀ b : Byte, (b ||| 0x80).toNat = 128 + b.toNat % 128 := by decide

/-- Bit 7 of a byte is its bit of weight 128. -/
theorem getLsbD_seven (b : Byte) : b.getLsbD 7 = decide (128 ≤ b.toNat) := BitVec.msb_eq_decide b

/-- Every byte before the last has bit 7 set and the next seven bits of the value below it (R78). -/
theorem toNat_getD_lebGo (n : Nat) (u : DWord) (j : Nat) (h : j + 1 < (lebGo n u).length) :
    ((lebGo n u).getD j 0).toNat = 128 + u.toNat / 2 ^ (7 * j) % 128 := by
  induction n generalizing u j with
  | zero => exact absurd h (by simp [lebGo])
  | succ n ih =>
    rcases Nat.lt_or_ge u.toNat 128 with hlt | hle
    · have hlen := (lebGo_of_lt_spec hlt (n + 1)).1
      omega
    · rw [lebGo_succ_of_le hle] at h ⊢
      cases j with
      | zero =>
        rw [List.getD_cons_zero, toNat_or_0x80, BitVec.toNat_setWidth]
        omega
      | succ j =>
        rw [List.getD_cons_succ, ih _ _ (Nat.lt_of_succ_lt_succ h), toNat_ushiftRight_seven, div_two_pow_seven_mul_succ]

/-- The last byte is what is left of the value: bit 7 is clear, and it is not 0x00 unless the value is 0 (R78). The bound says that `n`
continuation bytes leave at most one bit. -/
theorem toNat_getD_lebGo_last (n : Nat) (u : DWord) (hu : u.toNat < 2 ^ (7 * n + 1)) (m : Nat) (hm : (lebGo n u).length = m + 1) :
    ((lebGo n u).getD m 0).toNat = u.toNat / 2 ^ (7 * m) ∧ u.toNat / 2 ^ (7 * m) < 128 ∧
      (u.toNat ≠ 0 → u.toNat / 2 ^ (7 * m) ≠ 0) := by
  induction n generalizing u m with
  | zero =>
    obtain ⟨hlen, hbyte⟩ := lebGo_of_lt_spec (u := u) (by omega) 0
    obtain rfl : m = 0 := by omega
    omega
  | succ n ih =>
    rcases Nat.lt_or_ge u.toNat 128 with hlt | hle
    · obtain ⟨hlen, hbyte⟩ := lebGo_of_lt_spec hlt (n + 1)
      obtain rfl : m = 0 := by omega
      omega
    · rw [lebGo_succ_of_le hle] at hm ⊢
      have hlen := (length_lebGo n (u >>> 7)).1
      have hrest : (u >>> 7).toNat < 2 ^ (7 * n + 1) := by
        rw [toNat_ushiftRight_seven, Nat.div_lt_iff_lt_mul (by decide)]
        exact hu.trans_eq (Nat.pow_add 2 (7 * n + 1) 7)
      rw [List.length_cons] at hm
      obtain ⟨m, rfl⟩ : ∃ m', m = m' + 1 := ⟨m - 1, by omega⟩
      obtain ⟨hbyte, hlt, hpos⟩ := ih (u >>> 7) hrest m (by omega)
      rw [toNat_ushiftRight_seven] at hbyte hlt hpos
      rw [List.getD_cons_succ, div_two_pow_seven_mul_succ]
      exact ⟨hbyte, hlt, fun _ => hpos (by omega)⟩

/-- Settles O14: R78 for the loop of R91 on the ZigZag value; in a tenth byte the value has one bit left, which is 1. -/
theorem varintByteFormat : Obligations.VarintByteFormat := by
  intro v
  obtain ⟨hone, hten⟩ := length_encodeVarint v
  obtain ⟨m, hm⟩ : ∃ m, (encodeVarint v).length = m + 1 := ⟨(encodeVarint v).length - 1, by omega⟩
  have hbyte (j : Nat) (hj : j < m) : ((encodeVarint v).getD j 0).toNat = 128 + (zigZag v).toNat / 2 ^ (7 * j) % 128 :=
    toNat_getD_lebGo 9 (zigZag v) j (hm ▸ Nat.succ_lt_succ hj)
  obtain ⟨hlast, hlt, hpos⟩ : ((encodeVarint v).getD m 0).toNat = (zigZag v).toNat / 2 ^ (7 * m) ∧ _ ∧ _ :=
    toNat_getD_lebGo_last 9 (zigZag v) (zigZag v).isLt m hm
  have hzero (h : (encodeVarint v).getD m 0 = 0) : m = 0 := by
    rw [h] at hlast
    have hz : (zigZag v).toNat = 0 := by
      by_contra hne
      exact hpos hne hlast.symm
    have hlen : (encodeVarint v).length = 1 := (lebGo_of_lt_spec (by omega) 9).1
    omega
  refine ⟨m + 1, hm, by omega, by omega, fun j hj => ?_, ?_, fun j hj => ?_, fun h => congrArg (· + 1) (hzero h), fun h => ?_⟩
  · rw [getLsbD_seven, hbyte j (by omega), decide_eq_true_eq]
    omega
  · rw [Nat.add_sub_cancel, getLsbD_seven, hlast, decide_eq_false_iff_not]
    omega
  · rcases Nat.lt_succ_iff_lt_or_eq.1 hj with hj | rfl
    · rw [hbyte j hj]
      omega
    · rw [hlast]
  · obtain rfl : m = 9 := by omega
    have hne : ((encodeVarint v).getD 9 0).toNat ≠ 0 := fun h => absurd (hzero (BitVec.eq_of_toNat_eq h)) (by decide)
    have hbit := (zigZag v).isLt
    have hval : ((encodeVarint v).getD 9 0).toNat = 1 := by omega
    exact BitVec.eq_of_toNat_eq hval

/-! ### The index buffer -/

/-- Settles O17: the digest's bytes are those of the padded varint (R77). -/
theorem indexBufferLayout : Obligations.IndexBufferLayout := by
  intro i
  obtain ⟨hone, hten⟩ := length_encodeVarint i
  refine ⟨hone, hten, fun j hj => ?_⟩
  have hbyte : (indexBuffer i)[j] = (encodeVarint i ++ zeros (32 - (encodeVarint i).length)).getD j 0 := by
    rw [← toList_indexBuffer, List.getD_eq_getElem _ _ (by simpa using hj), Vector.getElem_toList]
  rw [hbyte]
  split
  next hin => rw [List.getD_append _ _ _ _ hin]
  next hout =>
    rw [List.getD_append_right _ _ _ _ (Nat.le_of_not_lt hout), zeros, List.getD_replicate _ (by omega)]

end Sys2Proof.Machine
end

