-- ==== Sys2Proof/Proofs/Varint.lean ====
section
/-! PROOFS. The statements about the varint encoder and the VARINT command (40_varint.md R90 to R94). -/

namespace Sys2Proof.Machine

open Sys2Proof.Claims

/-! ### ZigZag -/

/-- The signed reading of a value is not negative exactly when its top bit is clear (R90). -/
theorem toInt_nonneg_iff (v : DWord) : 0 ≤ v.toInt ↔ v.toNat < 2 ^ 63 := by
  rw [BitVec.toInt_eq_toNat_cond]
  have hv := v.isLt
  split <;> omega

/-- A value that is not negative is doubled: the sign has no bit to flip (R90). -/
theorem zigZag_of_lt {v : DWord} (h : v.toNat < 2 ^ 63) : zigZag v = 2 * v := by
  have hmsb : v.msb = false := BitVec.msb_eq_false_iff_two_mul_lt.2 (by omega)
  have hsign : v.sshiftRight 63 = 0#64 := by
    rw [BitVec.sshiftRight_eq_of_msb_false hmsb]
    refine BitVec.eq_of_toNat_eq ?_
    rw [BitVec.toNat_ushiftRight, Nat.shiftRight_eq_div_pow, Nat.div_eq_of_lt h, BitVec.toNat_zero]
  rw [zigZag, hsign, BitVec.xor_zero, BitVec.shiftLeft_eq_mul_twoPow, mul_comm]
  rfl

/-- A negative value is doubled and complemented: the sign flips every bit (R90). -/
theorem zigZag_of_ge {v : DWord} (h : 2 ^ 63 ≤ v.toNat) : zigZag v = ~~~(2 * v) := by
  have hmsb : v.msb = true := by
    rw [BitVec.msb_eq_decide, decide_eq_true_eq]
    exact h
  have hrest : ~~~v >>> 63 = 0#64 := by
    refine BitVec.eq_of_toNat_eq ?_
    rw [BitVec.toNat_ushiftRight, BitVec.toNat_not, Nat.shiftRight_eq_div_pow, Nat.div_eq_of_lt (by omega), BitVec.toNat_zero]
  have hsign : v.sshiftRight 63 = BitVec.allOnes 64 := by
    rw [BitVec.sshiftRight_eq_of_msb_true hmsb, hrest, BitVec.not_zero]
  rw [zigZag, hsign, BitVec.xor_allOnes, BitVec.shiftLeft_eq_mul_twoPow, mul_comm]
  rfl

/-- ZigZag as a number: the even ones upwards for v >= 0, the odd ones downwards from 2^64 - 1 for v < 0 (R90). -/
theorem toNat_zigZag (v : DWord) :
    (zigZag v).toNat = if v.toNat < 2 ^ 63 then 2 * v.toNat else 2 ^ 65 - 1 - 2 * v.toNat := by
  have hv := v.isLt
  have htwo : (2 * v).toNat = 2 * v.toNat % 2 ^ 64 := BitVec.toNat_mul 2 v
  split
  next h =>
    rw [zigZag_of_lt h, htwo]
    omega
  next h =>
    rw [zigZag_of_ge (Nat.le_of_not_lt h), BitVec.toNat_not, htwo]
    omega

/-- The parity tells the two signs apart, and values of one sign are doubled with nothing lost (R90). -/
theorem zigZag_injective : Function.Injective zigZag := by
  intro v w h
  have hnat := congrArg BitVec.toNat h
  rw [toNat_zigZag, toNat_zigZag] at hnat
  have hv := v.isLt
  have hw := w.isLt
  refine BitVec.eq_of_toNat_eq ?_
  split at hnat <;> split at hnat <;> omega

/-- Settles O11: the sign of v decides the form and the parity; an injective map of a finite type to itself is a bijection. -/
theorem zigZagForms : Obligations.ZigZagForms := by
  refine ⟨fun v => ?_, by decide, by decide, by decide, by decide, by decide, fun v => ?_,
    Finite.injective_iff_bijective.1 zigZag_injective⟩
  · simp only [toInt_nonneg_iff]
    split
    next h => exact zigZag_of_lt h
    next h => exact zigZag_of_ge (Nat.le_of_not_lt h)
  · simp only [toInt_nonneg_iff, toNat_zigZag]
    have hv := v.isLt
    split <;> omega

/-! ### The loop of Leb -/

/-- One more continuation byte is never used by a value that `n` of them and the last byte can hold (R91, log entry 11). -/
theorem lebGo_succ_eq (n : Nat) {u : DWord} (hu : u.toNat < 2 ^ (7 * (n + 1))) : lebGo (n + 1) u = lebGo n u := by
  induction n generalizing u with
  | zero => rw [lebGo_of_lt hu, lebGo_of_lt hu]
  | succ n ih =>
    rcases Nat.lt_or_ge u.toNat 128 with hlt | hle
    · rw [lebGo_of_lt hlt, lebGo_of_lt hlt]
    · have hrest : (u >>> 7).toNat < 2 ^ (7 * (n + 1)) := by
        rw [toNat_ushiftRight_seven, Nat.div_lt_iff_lt_mul (by decide)]
        exact hu.trans_eq (Nat.pow_add 2 (7 * (n + 1)) 7)
      rw [lebGo_succ_of_le hle, lebGo_succ_of_le hle, ih hrest]

/-- Leb ends at a value that fits seven bits (R91). -/
theorem leb_of_lt {u : DWord} (h : u.toNat < 128) : leb u = [u.setWidth 8] := lebGo_of_lt h 9

/-- Leb emits a continuation byte and goes on as Leb of what is left, at most 57 bits (R91). -/
theorem leb_of_le {u : DWord} (h : 128 ≤ u.toNat) : leb u = (u.setWidth 8 ||| 0x80) :: leb (u >>> 7) := by
  have hrest : (u >>> 7).toNat < 2 ^ (7 * (8 + 1)) := by
    rw [toNat_ushiftRight_seven]
    have hu := u.isLt
    omega
  rw [leb, leb, lebGo_succ_of_le h, lebGo_succ_eq 8 hrest]

/-- Bit 7 is set either way, so it does not matter whether eight or seven bits of the value are taken (R91). -/
theorem extractLsb'_eight_or_0x80 (u : DWord) :
    u.extractLsb' 0 8 ||| 0x80 = (u.extractLsb' 0 7).setWidth 8 ||| 0x80 := by
  refine BitVec.eq_of_toNat_eq ?_
  rw [toNat_or_0x80, toNat_or_0x80, BitVec.toNat_setWidth, BitVec.extractLsb'_toNat, BitVec.extractLsb'_toNat]
  omega

/-- Settles O12: the two cases of Leb are the two branches of the loop. -/
theorem lebFollowsItsLoop : Obligations.LebFollowsItsLoop := by
  intro u
  have hlow : u.setWidth 8 = u.extractLsb' 0 8 := BitVec.setWidth_eq_extractLsb' (by decide)
  refine ⟨?_, extractLsb'_eight_or_0x80 u⟩
  rw [← hlow]
  split
  next h => exact leb_of_le h
  next h => exact leb_of_lt (Nat.lt_of_not_le h)

/-! ### The length of a varint -/

/-- Taking seven bits off a value of at least eight takes seven off its bit length. -/
theorem log2_div_128_add_seven {x : Nat} (h : 128 ≤ x) : (x / 128).log2 + 7 = x.log2 := by
  have hseven : 7 ≤ x.log2 := (Nat.le_log2 (by omega)).2 h
  have hdiv : (x / 128).log2 = x.log2 - 7 := by
    rw [Nat.log2_eq_log_two, Nat.log2_eq_log_two]
    exact Nat.log_div_base_pow 2 x 7
  omega

/-- Leb emits one byte for each seven bits begun; the value 0 counts as one bit (R93). -/
theorem length_leb (u : DWord) : (leb u).length = u.toNat.log2 / 7 + 1 := by
  induction hx : u.toNat using Nat.strong_induction_on generalizing u with
  | _ x ih =>
    subst hx
    rcases Nat.lt_or_ge u.toNat 128 with hlt | hle
    · have hlog : u.toNat.log2 < 7 := by
        rcases Nat.eq_zero_or_pos u.toNat with h0 | hpos
        · rw [h0]
          decide
        · exact (Nat.log2_lt hpos.ne').2 hlt
      rw [leb_of_lt hlt, List.length_singleton, Nat.div_eq_of_lt hlog]
    · have hlog := log2_div_128_add_seven hle
      have hrest := ih (u >>> 7).toNat (by rw [toNat_ushiftRight_seven]; omega) (u >>> 7) rfl
      rw [leb_of_le hle, List.length_cons, hrest, toNat_ushiftRight_seven]
      omega

/-- R93's length for every value. -/
theorem length_encodeVarint_eq (v : DWord) : (encodeVarint v).length = (zigZag v).toNat.log2 / 7 + 1 := length_leb _

/-- Ten bytes are needed exactly for a value of 64 bits (R93). -/
theorem length_leb_eq_ten_iff (u : DWord) : (leb u).length = 10 ↔ 2 ^ 63 ≤ u.toNat := by
  rw [length_leb]
  rcases Nat.eq_zero_or_pos u.toNat with h0 | hpos
  · rw [h0]
    decide
  · have hge := Nat.le_log2 (n := u.toNat) (k := 63) hpos.ne'
    have hlt : u.toNat.log2 < 64 := (Nat.log2_lt hpos.ne').2 u.isLt
    omega

/-- A varint fits OUT, whatever the engine's sizes (R93, R94). -/
theorem length_encodeVarint_le_outCap (v : DWord) (p : Params) : (encodeVarint v).length ≤ outCap p := by
  have hten := (length_encodeVarint v).2
  rw [outCap_eq]
  omega

/-! ### VARINT -/

/-- What a command without password does when its body writes the result `bs` and loads the datapath: the bytes in OUT, the flags, and
nothing else (R156). -/
theorem plainEffect_runBody_writeResult {body : State → Except CmdError State} {s : State} {bs : List Byte} {dp : Datapath}
    (hbody : body (clearOut s) = .ok (writeResult bs { clearOut s with dp := dp })) (hcap : bs.length ≤ outCap s.params)
    (hlen : bs.length < 2 ^ 32) : PlainEffect s (runBody false body s) bs false := by
  have hread (x : Nat) : (endCommand false (completeOk (writeResult bs { clearOut s with dp := dp }))).mem.read x =
      if outBase ≤ x ∧ x < outBase + outCap s.params then bs.getD (x - outBase) 0 else s.mem.read x :=
    read_writeResult rfl hcap x
  rw [runBody_ok hbody]
  refine ⟨⟨Nat.mod_eq_of_lt hlen, hcap, fun j hj => ?_⟩, ⟨rfl, rfl, rfl, rfl, rfl⟩,
    ⟨rfl, rfl, rfl, rfl, rfl, rfl, rfl, rfl, rfl, rfl, rfl, rfl, rfl⟩, ⟨rfl, rfl, rfl⟩, rfl, fun a ha => ?_⟩
  · rw [hread, if_pos ⟨Nat.le_add_right _ _, Nat.add_lt_add_left hj _⟩, Nat.add_sub_cancel_left]
  · rw [hread, if_neg ha]

/-- VARINT raises no error and has its whole effect from every state (R94). -/
theorem exec_varint_plainEffect (s : State) :
    ∃ t, exec .varint s = .next t ∧ PlainEffect s t (encodeVarint (s.indexHi ++ s.indexLo)) false := by
  have hcap := length_encodeVarint_le_outCap (s.indexHi ++ s.indexLo) s.params
  have hten := (length_encodeVarint (s.indexHi ++ s.indexLo)).2
  exact ⟨_, exec_eq .varint s, plainEffect_runBody_writeResult (dp := s.dp) rfl hcap (by omega)⟩

/-- Settles O13: one byte for each seven bits begun is ceil(b/7) for the bit length b, and VARINT's effect has ERR_CODE 0. -/
theorem varintLength : Obligations.VarintLength := by
  refine ⟨fun v => ?_, fun p hp => ?_, fun s => ?_⟩
  · obtain ⟨hone, hten⟩ := length_encodeVarint v
    refine ⟨fun hzero => ?_, fun _ => ?_, hone, hten, length_leb_eq_ten_iff (zigZag v)⟩
    · rw [encodeVarint, hzero]
      rfl
    · rw [length_encodeVarint_eq]
      omega
  · have hbounds := params_bounds hp
    rw [outCap_eq]
    omega
  · obtain ⟨t, hexec, -, ⟨-, -, -, -, herr⟩, -⟩ := exec_varint_plainEffect s
    exact ⟨t, hexec, herr⟩

/-- Settles O16: the word of the table, VARINT's effect, and the rule's corner cases and worked example by evaluation. -/
theorem varintCompletes : Obligations.VarintCompletes :=
  ⟨(decode_eq_ok_iff _ _).2 rfl, exec_varint_plainEffect, by decide, by decide, by decide, by decide, by decide, by decide⟩

end Sys2Proof.Machine
end

