-- ==== Sys2Proof/Proofs/Framing.lean ====
section
/-! PROOFS. The statements about the pure functions Frame and Unframe (42_framing.md R110 to R117). -/

namespace Sys2Proof.Machine

open Sys2Proof.Claims

/-! ### The length field -/

/-- The length field is the little-endian word of the first four bytes (R112). -/
theorem lengthField_eq (f : List Byte) : lengthField f = (wordOfLe f).toNat := by
  rw [toNat_wordOfLe, lengthField]
  ring

/-- The length field of bytes that begin with `le32(v)` is v, whatever follows (R13, R112). -/
theorem lengthField_le32_append (v : Word) (rest : List Byte) : lengthField (le32 v ++ rest) = v.toNat := by
  have hfront : wordOfLe (le32 v ++ rest) = wordOfLe (le32 v) := rfl
  rw [lengthField_eq, hfront, wordOfLe_le32]

/-- A data length below 2^32 fits the length field, so it is read back unwrapped (R110). -/
theorem lengthField_le32_length_append {d : List Byte} (hd : d.length < 2 ^ 32) (rest : List Byte) :
    lengthField (le32 (BitVec.ofNat 32 d.length) ++ d ++ rest) = d.length := by
  rw [List.append_assoc, lengthField_le32_append, BitVec.toNat_ofNat, Nat.mod_eq_of_lt hd]

/-! ### The parts after the length field -/

/-- The data stands right after the length field. -/
theorem take_drop_le32_append (v : Word) (d rest : List Byte) : ((le32 v ++ d ++ rest).drop 4).take d.length = d := by
  rw [List.append_assoc, List.drop_left' (length_le32 v), List.take_left' rfl]

/-- What stands after the length field and the data is the rest. -/
theorem drop_le32_append (v : Word) (d rest : List Byte) : (le32 v ++ d ++ rest).drop (4 + d.length) = rest :=
  List.drop_left' (by rw [List.length_append, length_le32])

/-! ### Unframe -/

/-- A short frame, or a length field that does not fit, gives FORMAT (R112). -/
theorem unframeBytes_error {f : List Byte} (h : f.length < 4 ∨ f.length - 4 < lengthField f) :
    unframeBytes f = .error .format := by
  rw [lengthField_eq] at h
  obtain ⟨herr, -⟩ | ⟨-, hlong, hfits⟩ := unframeBytes_cases f
  · exact herr
  · omega

/-- A length field that fits gives that many bytes after it (R112, R113). -/
theorem unframeBytes_ok {f : List Byte} (hlong : 4 ≤ f.length) (hfits : lengthField f ≤ f.length - 4) :
    unframeBytes f = .ok ((f.drop 4).take (lengthField f)) := by
  rw [lengthField_eq] at hfits ⊢
  obtain ⟨-, hshort | hover⟩ | ⟨hok, -⟩ := unframeBytes_cases f
  · omega
  · omega
  · exact hok

/-- Settles O22: the two branches of Unframe, with the length field read as a number. -/
theorem unframeRule : Obligations.UnframeRule := fun _ => ⟨unframeBytes_error, unframeBytes_ok⟩

/-- Settles O23: the length field gives the data's length, which fits, and the bytes taken are the data, whatever stands after them. -/
theorem unframeIgnoresPadding : Obligations.UnframeIgnoresPadding := by
  intro d extra hd
  have hfield := lengthField_le32_length_append hd extra
  have hlen : (le32 (BitVec.ofNat 32 d.length) ++ d ++ extra).length = 4 + d.length + extra.length := by
    rw [List.length_append, List.length_append, length_le32]
  rw [unframeBytes_ok (by omega) (by omega), hfield, take_drop_le32_append]

/-! ### Frame -/

/-- Settles O24: the padding of a frame is one choice of the bytes that Unframe ignores; IN_CAP is far below 2^32. -/
theorem unframeInvertsFrame : Obligations.UnframeInvertsFrame := by
  intro p d hp hd
  have hcap := params_bounds hp
  exact unframeIgnoresPadding d _ (by omega)

/-- Settles O20: the number of blocks is R111's and the padding fills the last block; the parts are those of the concatenation. -/
theorem frameLayout : Obligations.FrameLayout := by
  intro d hd
  have hcount : blockCount d.length = (4 + d.length + 31) / 32 := rfl
  exact ⟨blockCount d.length, 32 * blockCount d.length - 4 - d.length, by omega, by omega, by omega, hcount,
    length_frameBytes d, lengthField_le32_length_append hd _, take_drop_le32_append _ d _, drop_le32_append _ d _⟩

end Sys2Proof.Machine
end

