-- ==== Sys2Proof/Proofs/Cipher.lean ====
section
/-! PROOFS. The statements about the XOR datapath, EncryptWith, DecryptFn and the password's erasure (43_cipher.md R120 to R129). -/

namespace Sys2Proof.Machine

open Sys2Proof.Claims

/-! ### One block -/

theorem length_blockXor {b : List Byte} (h : b.length = 32) (k : Digest) : (blockXor b k).length = 32 := by
  rw [blockXor, length_xorBytes, length_digest, h, Nat.min_self]

/-- Lane j of a block is its byte XORed with the key's (R120). -/
theorem getD_blockXor {b : List Byte} (h : b.length = 32) (k : Digest) {j : Nat} (hj : j < 32) :
    (blockXor b k).getD j 0 = b.getD j 0 ^^^ k[j] := by
  rw [List.getD_eq_getElem _ _ (by rw [length_blockXor h]; exact hj), List.getD_eq_getElem _ _ (by omega)]
  simp [blockXor, xorBytes]

/-- XORing with one key twice cancels in every lane (R120). -/
theorem blockXor_blockXor {b : List Byte} (h : b.length = 32) (k : Digest) : blockXor (blockXor b k) k = b := by
  have hlen := length_blockXor h k
  refine List.ext_getElem ((length_blockXor hlen k).trans h.symm) fun j hj hj' => ?_
  have hlane : (blockXor (blockXor b k) k).getD j 0 = b.getD j 0 := by
    rw [getD_blockXor hlen k (by omega), getD_blockXor h k (by omega), BitVec.xor_assoc, BitVec.xor_self, BitVec.xor_zero]
  rwa [List.getD_eq_getElem _ _ hj, List.getD_eq_getElem _ _ hj'] at hlane

/-- Settles O27: the lanes are those of a zipped list, and equal bytes cancel. -/
theorem blockXorLanes : Obligations.BlockXorLanes := fun _ k h =>
  ⟨length_blockXor h k, fun _ hj => getD_blockXor h k hj, blockXor_blockXor h k⟩

/-! ### The block loop -/

/-- One round of the block loop: the first block under the key of index i, then the loop from i + 1 on the rest (R121). -/
theorem cipherLoop_succ_snd (P : Ports) (n i : Nat) (dp : Datapath) (x : List Byte) :
    (cipherLoop P (n + 1) i dp x).2 =
      blockXor (x.take 32) (deriveBlockKey P dp.pdig (BitVec.ofNat 64 i) dp.ndig) ++
        (cipherLoop P n (i + 1) (loadBlockKey P (BitVec.ofNat 64 i) { dp with blk := BitVec.ofNat 64 i }) (x.drop 32)).2 :=
  rfl

/-- Every round finds PDIG and NDIG as they were, so the loop gives block j under the key of index i + j (R121). -/
theorem cipherLoop_snd (P : Ports) (n i : Nat) (dp : Datapath) (x : List Byte) :
    (cipherLoop P n i dp x).2 = (List.range n).flatMap fun j =>
      blockXor ((x.drop (32 * j)).take 32) (deriveBlockKey P dp.pdig (BitVec.ofNat 64 (i + j)) dp.ndig) := by
  induction n generalizing i dp x with
  | zero => rfl
  | succ n ih =>
    rw [cipherLoop_succ_snd, ih, List.range_succ_eq_map, List.flatMap_cons, List.flatMap_map]
    simp only [loadBlockKey, List.drop_drop, Nat.mul_zero, List.drop_zero, Nat.add_zero, Nat.succ_eq_add_one, Nat.mul_add,
      Nat.mul_one, Nat.add_comm, Nat.add_left_comm]

/-- CipherBlocks is R121's function of PDIG and NDIG, with no loop state. -/
theorem cipherBlocks_snd (P : Ports) (dp : Datapath) (x : List Byte) :
    (cipherBlocks P dp x).2 = keystreamXor P dp.pdig dp.ndig x := by
  rw [cipherBlocks, cipherLoop_snd]
  simp only [keystreamXor, blockXor, Nat.zero_add]

/-- The loop run twice with the same digests gives whole blocks back, block by block (R120, R121). -/
theorem cipherLoop_cipherLoop (P : Ports) {n i : Nat} {dp dp' : Datapath} {x : List Byte} (hx : x.length = 32 * n)
    (hpdig : dp'.pdig = dp.pdig) (hndig : dp'.ndig = dp.ndig) :
    (cipherLoop P n i dp' (cipherLoop P n i dp x).2).2 = x := by
  induction n generalizing i dp dp' x with
  | zero => exact (List.length_eq_zero_iff.1 hx).symm
  | succ n ih =>
    have hblock : (x.take 32).length = 32 := by rw [List.length_take]; omega
    have hrest : (x.drop 32).length = 32 * n := by rw [List.length_drop]; omega
    rw [cipherLoop_succ_snd, cipherLoop_succ_snd, List.take_left' (length_blockXor hblock _),
      List.drop_left' (length_blockXor hblock _), hpdig, hndig, blockXor_blockXor hblock, ih hrest,
      List.take_append_drop]
    · rfl
    · rfl

/-! ### The keystream -/

/-- A datapath that holds the given PDIG and NDIG. -/
def Datapath.withDigests (pd nd : Digest) : Datapath := { Datapath.zero with pdig := pd, ndig := nd }

/-- R121's function is the block loop on a datapath with its digests. -/
theorem keystreamXor_eq (P : Ports) (pd nd : Digest) (x : List Byte) :
    keystreamXor P pd nd x = (cipherBlocks P (.withDigests pd nd) x).2 :=
  (cipherBlocks_snd P (.withDigests pd nd) x).symm

/-- The keystream keeps the length of whole blocks (R121). -/
theorem length_keystreamXor (P : Ports) (pd nd : Digest) {x : List Byte} (hx : x.length % 32 = 0) :
    (keystreamXor P pd nd x).length = x.length := by
  obtain ⟨-, -, hlen⟩ := cipherLoop_keeps P (x.length / 32) 0
    { Datapath.withDigests pd nd with nblk := BitVec.ofNat 64 (x.length / 32) } x (by omega)
  rw [keystreamXor_eq, cipherBlocks, hlen]
  omega

/-- The keystream is its own inverse on whole blocks (R120, R121). -/
theorem keystreamXor_keystreamXor (P : Ports) (pd nd : Digest) {x : List Byte} (hx : x.length % 32 = 0) :
    keystreamXor P pd nd (keystreamXor P pd nd x) = x := by
  have hlen := length_keystreamXor P pd nd hx
  rw [keystreamXor_eq] at hlen ⊢
  rw [keystreamXor_eq, cipherBlocks, hlen]
  exact cipherLoop_cipherLoop P (by omega) rfl rfl

/-! ### EncryptWith -/

/-- A frame is whole blocks (R110). -/
theorem length_frameBytes_mod (d : List Byte) : (frameBytes d).length % 32 = 0 := by
  rw [length_frameBytes, Nat.mul_mod_right]

/-- EncryptWith is R122's wire message, whatever the password and the data. -/
theorem encryptWith_eq (P : Ports) (d pw : List Byte) (n : Digest) : encryptWith P d pw n = wireMessage P d pw n := by
  simp only [encryptWith, encryptRun, cipherBlocks_snd]
  rfl

/-- A wire message is the checksum, the nonce and one block of ciphertext for each block of the frame (R76). -/
theorem length_wireMessage (P : Ports) (d pw : List Byte) (n : Digest) :
    (wireMessage P d pw n).length = 64 + 32 * blockCount d.length := by
  simp only [wireMessage, List.length_append, length_digest, length_keystreamXor P _ _ (length_frameBytes_mod d),
    length_frameBytes]

/-- Settles O29: the datapath's course is the written-out message, and the length is that of its three parts. -/
theorem encryptWithLayout : Obligations.EncryptWithLayout := by
  intro P d pw n _ _
  refine ⟨encryptWith_eq P d pw n, ?_⟩
  rw [encryptWith_eq, length_wireMessage]
  rfl

/-! ### The checks of DecryptFn -/

theorem messageLengthOk_iff (w : List Byte) : messageLengthOk w = true ↔ WellFormedLength w := by
  simp only [messageLengthOk, WellFormedLength, Bool.and_eq_true, decide_eq_true_eq, beq_iff_eq]
  constructor
  · rintro ⟨hlong, hmod⟩
    exact ⟨(w.length - 64) / 32, by omega⟩
  · rintro ⟨k, hk⟩
    omega

theorem length_ge_of_wellFormedLength {w : List Byte} (hw : WellFormedLength w) : 64 ≤ w.length := by
  obtain ⟨k, hk⟩ := hw
  omega

/-- The nonce field of a message that is long enough is W[32..64) (R76). -/
theorem toList_messageNonce {w : List Byte} (h : 64 ≤ w.length) : (messageNonce w).toList = (w.drop 32).take 32 := by
  rw [messageNonce, toList_digestOfBytes_take, List.take_append_of_le_length (by rw [List.length_drop]; omega)]

/-- The recomputed checksum is over everything after the checksum field, since nonce and ciphertext adjoin (R140, R141). -/
theorem checksumMatches_iff (P : Ports) {w : List Byte} (h : 64 ≤ w.length) :
    checksumMatches P w = true ↔ ChecksumHolds P w := by
  have hrest : (messageNonce w).toList ++ messageCiphertext w = w.drop 32 := by
    rw [toList_messageNonce h, messageCiphertext, ← List.drop_drop (i := 32) (j := 32), List.take_append_drop]
  rw [checksumMatches, checksum, hrest, messageChecksum, beq_iff_eq]

/-- An empty password is found first (R123). -/
theorem decryptFn_nil (P : Ports) (w : List Byte) : decryptFn P w [] = .error .invalidPassword := rfl

/-- Then a malformed length (R123). -/
theorem decryptFn_of_not_wellFormedLength (P : Ports) {w pw : List Byte} (hpw : pw ≠ []) (hw : ¬WellFormedLength w) :
    decryptFn P w pw = .error .format := by
  have hne : ¬pw.length = 0 := mt List.length_eq_zero_iff.1 hpw
  have hlen : messageLengthOk w = false := Bool.eq_false_iff.2 (mt (messageLengthOk_iff w).1 hw)
  rw [decryptFn, decryptRun, if_neg hne, if_pos hlen]
  rfl

/-- The datapath of DECRYPT recovers the frame under the password's keystream (R123). -/
theorem cipherBlocks_message_snd (P : Ports) {w : List Byte} (pw : List Byte) (dp : Datapath) (h : 64 ≤ w.length) :
    (cipherBlocks P (loadDigests P pw (messageNonce w) dp) (messageCiphertext w)).2 = recoveredFrame P w pw := by
  rw [cipherBlocks_snd, recoveredFrame, ← toList_messageNonce h]
  rfl

/-- Then the checksum decides between INTEGRITY and Unframe's outcome (R123). -/
theorem decryptFn_of_wellFormedLength (P : Ports) {w pw : List Byte} (hpw : pw ≠ []) (hw : WellFormedLength w) :
    decryptFn P w pw = if ChecksumHolds P w then unframeBytes (recoveredFrame P w pw) else .error .integrity := by
  have hlong := length_ge_of_wellFormedLength hw
  have hne : ¬pw.length = 0 := mt List.length_eq_zero_iff.1 hpw
  have hlen : ¬messageLengthOk w = false := ne_false_of_eq_true ((messageLengthOk_iff w).2 hw)
  rw [decryptFn, decryptRun, if_neg hne, if_neg hlen]
  split
  next hbad =>
    rw [if_neg (mt (checksumMatches_iff P hlong).2 (Bool.eq_false_iff.1 hbad))]
    rfl
  next hgood =>
    rw [if_pos ((checksumMatches_iff P hlong).1 (eq_true_of_ne_false hgood))]
    simp only [cipherBlocks_message_snd P pw _ hlong]
    cases unframeBytes (recoveredFrame P w pw) <;> rfl

/-- When every check passes, the outcome is Unframe's (R123). -/
theorem decryptFn_of_checksumHolds {P : Ports} {w pw : List Byte} (hpw : pw ≠ []) (hw : WellFormedLength w)
    (hsum : ChecksumHolds P w) : decryptFn P w pw = unframeBytes (recoveredFrame P w pw) := by
  rw [decryptFn_of_wellFormedLength P hpw hw, if_pos hsum]

/-- The recovered frame has the ciphertext's length (R123). -/
theorem length_recoveredFrame (P : Ports) {w : List Byte} (pw : List Byte) {k : Nat} (hw : w.length = 64 + 32 * k) :
    (recoveredFrame P w pw).length = 32 * k := by
  have hlen : (w.drop 64).length = 32 * k := by rw [List.length_drop, hw, Nat.add_sub_cancel_left]
  rw [recoveredFrame, length_keystreamXor P _ _ (by omega), hlen]

/-- DecryptFn of a message whose checksum matches, by its length field alone (R112, R123). -/
theorem decryptFn_eq_ite {P : Ports} {w pw : List Byte} {k : Nat} (hpw : pw ≠ []) (hw : w.length = 64 + 32 * k)
    (hsum : ChecksumHolds P w) :
    decryptFn P w pw =
      if k = 0 ∨ 32 * k - 4 < lengthField (recoveredFrame P w pw) then .error .format
      else .ok (((recoveredFrame P w pw).drop 4).take (lengthField (recoveredFrame P w pw))) := by
  have hlen := length_recoveredFrame P pw hw
  rw [decryptFn_of_checksumHolds hpw ⟨k, hw⟩ hsum]
  split
  next hbad => exact unframeBytes_error (by omega)
  next hgood => exact unframeBytes_ok (by omega) (by omega)

/-- Settles O30: one lemma for each check, in the order of R123; a message of 64 bytes is the case k = 0. -/
theorem decryptFnRule : Obligations.DecryptFnRule := by
  intro P w pw
  refine ⟨?_, decryptFn_of_not_wellFormedLength P, ?_, decryptFn_of_checksumHolds, ?_⟩
  · rintro rfl
    exact decryptFn_nil P w
  · intro hpw hw hsum
    rw [decryptFn_of_wellFormedLength P hpw hw, if_neg hsum]
  · intro hpw hw hsum
    rw [decryptFn_eq_ite (k := 0) hpw hw hsum, if_pos (.inl rfl)]

/-- Settles O32: neither outcome of a message whose checksum matches is INTEGRITY. -/
theorem wrongPasswordIsNotIntegrity : Obligations.WrongPasswordIsNotIntegrity := by
  intro P w pw k hpw hw hsum
  have hrule := decryptFn_eq_ite hpw hw hsum
  refine ⟨?_, hrule⟩
  rw [hrule]
  split <;> simp

/-! ### The round trip -/

/-- A wire message carries the checksum of what follows it (R122). -/
theorem checksumHolds_wireMessage (P : Ports) (d pw : List Byte) (n : Digest) : ChecksumHolds P (wireMessage P d pw n) := by
  simp only [ChecksumHolds, wireMessage, List.append_assoc, List.take_left' (length_digest _),
    List.drop_left' (length_digest _)]

/-- The nonce read from a wire message gives the keystream it was made with, so the frame is recovered (R128). -/
theorem recoveredFrame_wireMessage (P : Ports) (d pw : List Byte) (n : Digest) :
    recoveredFrame P (wireMessage P d pw n) pw = frameBytes d := by
  have hnonce : ((wireMessage P d pw n).drop 32).take 32 = n.toList := by
    simp only [wireMessage, List.append_assoc, List.drop_left' (length_digest _), List.take_left' (length_digest _)]
  have hcipher : (wireMessage P d pw n).drop 64 = keystreamXor P (P.passwordHash pw) (P.sha256 n.toList) (frameBytes d) :=
    List.drop_left' (by rw [List.length_append, length_digest, length_digest])
  rw [recoveredFrame, hnonce, hcipher, keystreamXor_keystreamXor P _ _ (length_frameBytes_mod d)]

/-- Settles O31: the checks pass on a wire message, the keystream cancels and Unframe inverts Frame; IN_CAP is whole blocks, so the message
fits exactly when the unpadded frame does. -/
theorem decryptInvertsEncrypt : Obligations.DecryptInvertsEncrypt := by
  refine ⟨fun P d pw n hd hpw => ?_, fun P d pw n p hp => ?_⟩
  · have hwf : WellFormedLength (wireMessage P d pw n) := ⟨_, length_wireMessage P d pw n⟩
    rw [encryptWith_eq, decryptFn_of_checksumHolds hpw hwf (checksumHolds_wireMessage P d pw n), recoveredFrame_wireMessage]
    exact unframeIgnoresPadding d _ hd
  · have hbounds := params_bounds hp
    rw [encryptWith_eq, length_wireMessage, blockCount]
    omega

/-! ### The password -/

/-- No body writes the sizes or PWD_LEN. -/
theorem bodyOf_pwdLen {i : Instr} {s t : State} (h : bodyOf i s = .ok t) : t.params = s.params ∧ t.pwdLen = s.pwdLen := by
  obtain ⟨dp, bs, rfl⟩ | ⟨-, dp, bs, rfl⟩ | ⟨-, ok, rfl⟩ := bodyOf_ok_cases h <;> exact ⟨rfl, rfl⟩

/-- No body writes a byte below OUT. -/
theorem bodyOf_read {i : Instr} {s t : State} (h : bodyOf i s = .ok t) {x : Nat} (hx : x < outBase) :
    t.mem.read x = s.mem.read x := by
  have hstore (bs : List Byte) : (s.mem.store outBase bs).read x = s.mem.read x := by
    rw [read_store, if_neg (by omega)]
  obtain ⟨dp, bs, rfl⟩ | ⟨-, dp, bs, rfl⟩ | ⟨-, ok, rfl⟩ := bodyOf_ok_cases h
  · exact hstore bs
  · exact hstore bs
  · rfl

/-- The password region ends below OUT (R51). -/
theorem pwdByte_lt_outBase {p : Params} (hp : p.wf = true) {j : Nat} (hj : j < p.pwdCap) : pwdBase + j < outBase := by
  have hbounds := params_bounds hp
  rw [pwdBase_eq, outBase_eq]
  omega

/-- Zero-filling OUT changes no byte below it. -/
theorem read_clearOut_of_lt (s : State) {x : Nat} (hx : x < outBase) : (clearOut s).mem.read x = s.mem.read x := by
  rw [read_clearOut, if_neg (by omega)]

/-- An error completion changes no byte below OUT (R158). -/
theorem read_raiseError_of_lt (e : CmdError) (s : State) {x : Nat} (hx : x < outBase) :
    (raiseError e (clearOut s)).mem.read x = s.mem.read x := by
  rw [read_raiseError, if_neg (by omega)]

/-- What the common end starts from, on success and on error: the sizes, PWD_LEN and every byte below OUT are those from before the
command (R156, R158). -/
theorem runBody_bodyOf_eq_endCommand (pw : Bool) (i : Instr) (s : State) :
    ∃ u, runBody pw (bodyOf i) s = endCommand pw u ∧ u.params = s.params ∧ u.pwdLen = s.pwdLen ∧
      ∀ x, x < outBase → u.mem.read x = s.mem.read x := by
  obtain ⟨t, hbody, hrun⟩ | ⟨e, -, hrun⟩ := runBody_cases pw (bodyOf i) s
  · obtain ⟨hparams, hlen⟩ := bodyOf_pwdLen hbody
    exact ⟨completeOk t, hrun, hparams, hlen, fun x hx => (bodyOf_read hbody hx).trans (read_clearOut_of_lt s hx)⟩
  · exact ⟨raiseError e (clearOut s), hrun, rfl, rfl, fun x hx => read_raiseError_of_lt e s hx⟩

/-- The common end of a password command zeroizes the password (R127). -/
theorem passwordZeroized_endCommand {s u : State} (h : u.params = s.params) : PasswordZeroized s (endCommand true u) := by
  refine ⟨rfl, fun j hj => ?_⟩
  rw [read_endCommand, h, if_pos ⟨rfl, Nat.le_add_right _ _, Nat.add_lt_add_left hj _⟩]

/-- The statement's list of password commands is the model's (R127). -/
theorem usesPassword_eq (i : Instr) : usesPassword i = zeroizesPassword i := by cases i <;> rfl

/-- Settles O37: no completion writes the password before the common end, which zeroizes it for the three password commands and leaves it
for the others. -/
theorem passwordDoesNotPersist : Obligations.PasswordDoesNotPersist := by
  refine ⟨fun i s hp => ⟨_, exec_eq i s, fun huse => ?_, fun hnot => ?_⟩, fun s hp => ?_⟩
  · obtain ⟨u, hrun, hparams, -, -⟩ := runBody_bodyOf_eq_endCommand (zeroizesPassword i) i s
    rw [hrun, ← usesPassword_eq, huse]
    exact passwordZeroized_endCommand hparams
  · obtain ⟨u, hrun, -, hlen, hread⟩ := runBody_bodyOf_eq_endCommand (zeroizesPassword i) i s
    rw [hrun, ← usesPassword_eq, hnot]
    exact ⟨hlen, fun j hj => hread _ (pwdByte_lt_outBase hp hj)⟩
  · exact ⟨_, execIllegal_eq s, rfl, fun j hj => read_raiseError_of_lt .illegalCommand s (pwdByte_lt_outBase hp hj)⟩

end Sys2Proof.Machine
end

