-- ==== Sys2Proof/Proofs/Exceptions.lean ====
section
/-! PROOFS. The statements about the start of a command and an illegal command word (60_exceptions.md R154, R157, R158). -/

namespace Sys2Proof.Machine

open Sys2Proof.Claims

/-! ### An error completion -/

/-- The model's error codes are R150's numbers. -/
theorem errorCode_eq_codeNumber (e : CmdError) : errorCode e = codeNumber e := by cases e <;> rfl

/-- The bytes after an error completion: OUT zero, PWD zero for a password command, everything else as it was (R158, R127). -/
theorem read_endCommand_raiseError (pw : Bool) (e : CmdError) (s : State) (x : Nat) :
    (endCommand pw (raiseError e (clearOut s))).mem.read x =
      if pw = true ∧ pwdBase ≤ x ∧ x < pwdBase + s.params.pwdCap then 0
      else if outBase ≤ x ∧ x < outBase + outCap s.params then 0 else s.mem.read x := by
  rw [read_endCommand, read_raiseError, raiseError_params, clearOut_params]

/-- An error completion reports its code and returns nothing (R158). -/
theorem failed_endCommand_raiseError (pw : Bool) (e : CmdError) (s : State) :
    Failed (endCommand pw (raiseError e (clearOut s))) e := by
  have herr : (endCommand pw (raiseError e (clearOut s))).errCode = codeNumber e := by
    rw [endCommand_errCode, raiseError_errCode, errorCode_eq_codeNumber]
  have hout : OutHolds (endCommand pw (raiseError e (clearOut s))) [] := by
    refine ⟨by simp, Nat.zero_le _, fun j hj => ?_⟩
    rw [endCommand_params, raiseError_params, clearOut_params] at hj
    have hin : outBase ≤ outBase + j ∧ outBase + j < outBase + outCap s.params := ⟨Nat.le_add_right _ _, Nat.add_lt_add_left hj _⟩
    rw [read_endCommand_raiseError, if_pos hin, ite_self, List.getD_nil]
  refine ⟨?_, ?_, ?_, ?_, herr, hout⟩ <;> simp

/-- An error completion writes nothing of what no engine step writes (R156). -/
theorem keptByEngine_endCommand_raiseError (pw : Bool) (e : CmdError) (s : State) :
    KeptByEngine s (endCommand pw (raiseError e (clearOut s))) := by
  constructor <;> simp

/-- An error completion makes no RNG request (R160). -/
theorem noDraw_endCommand_raiseError (pw : Bool) (e : CmdError) (s : State) :
    NoDraw s (endCommand pw (raiseError e (clearOut s))) := by
  simp [NoDraw]

/-- Without a password, an error completion changes no byte outside OUT. -/
theorem keptOutsideOut_endCommand_raiseError (e : CmdError) (s : State) :
    KeptOutsideOut s (endCommand false (raiseError e (clearOut s))) := by
  intro x hx
  rw [read_endCommand_raiseError, if_neg (by simp), if_neg hx]

/-! ### An illegal command word -/

/-- When the engine moves, the step is its turn (R62). -/
theorem step_of_engine {s : State} (h : whoMoves s = .engine) : step s = engineTurn (takeTurn s) := by
  rw [step, h, runTurn]

/-- A word is illegal by its OP or by a bit above it (R72). -/
theorem exists_decode_error {w : Word} (h : w.toNat % 16 = 0 ∨ 8 ≤ w.toNat % 16 ∨ w.toNat / 16 ≠ 0) :
    ∃ e, decode w = .error e :=
  (decode_error_iff w).2 (by omega)

/-- A BUSY engine's turn on an illegal word is the ILLEGAL_COMMAND completion (R154). -/
theorem engineTurn_of_decode_error {s : State} (hbusy : s.status.busy = true) (hword : ∃ e, decode s.cmd = .error e) :
    engineTurn s = .next (endCommand false (raiseError .illegalCommand (clearOut s))) := by
  obtain ⟨e, he⟩ := hword
  obtain ⟨hidle, -⟩ | ⟨-, i, hi, -⟩ | ⟨-, -, -, hturn⟩ := engineTurn_cases s
  · rw [hidle] at hbusy
    cases hbusy
  · rw [he] at hi
    cases hi
  · rw [hturn, execIllegal_eq]

/-- Settles O43: the word does not decode, so the step is an error completion without password, from the state that has taken its turn. -/
theorem illegalWordCompletes : Obligations.IllegalWordCompletes := by
  intro s hmoves hbusy hword
  have hturn : engineTurn (takeTurn s) = .next (endCommand false (raiseError .illegalCommand (clearOut (takeTurn s)))) :=
    engineTurn_of_decode_error hbusy (exists_decode_error hword)
  exact ⟨_, (step_of_engine hmoves).trans hturn, failed_endCommand_raiseError _ _ _, keptByEngine_endCommand_raiseError _ _ _,
    noDraw_endCommand_raiseError _ _ (takeTurn s), rfl, keptOutsideOut_endCommand_raiseError _ (takeTurn s)⟩

/-! ### The start of a command -/

/-- A CMD write in IDLE is the start of a command, whatever the word (R157). -/
theorem writeReg_cmd_of_idle {s : State} (hidle : s.status.busy = false) (v : Word) : writeReg .cmd v s = startCommand v s :=
  unlessBusy_idle hidle

/-- Settles O51: 0x004 is CMD's offset, and a start is written out in `startCommand`. -/
theorem commandStart : Obligations.CommandStart := by
  intro s v hidle
  calc memWrite32 0x004 v s = .ok (writeReg .cmd v s) := memWrite32_reg .cmd v s
    _ = .ok (startCommand v s) := by rw [writeReg_cmd_of_idle hidle]

end Sys2Proof.Machine
end

