-- ==== Sys2Proof/Proofs/Hazards.lean ====
section
/-! PROOFS. The statement about host writes while BUSY (70_reset_and_hazards.md R184, R186). -/

namespace Sys2Proof.Machine

open Sys2Proof.Claims

/-! ### Ignored register writes -/

/-- The registers whose write a BUSY engine ignores: the operand registers (R184) and CMD (R186). -/
def busyGuardedRegs : List Reg := [.pwdLen, .inLen, .indexLo, .indexHi, .cmd]

/-- While BUSY a guarded register's write is the hazard, for each of them goes through `unlessBusy`. -/
theorem writeReg_of_busy {r : Reg} (hr : r ∈ busyGuardedRegs) (v : Word) {s : State} (hbusy : s.status.busy = true) :
    writeReg r v s = hazard s := by
  cases r with
  | pwdLen | inLen | indexLo | indexHi | cmd => rw [writeReg, unlessBusy_busy hbusy]
  | ctrl | status | errCode | outLen => exact absurd hr (by decide)

theorem memWrite32_reg_of_busy {r : Reg} (hr : r ∈ busyGuardedRegs) (v : Word) {s : State} (hbusy : s.status.busy = true) :
    memWrite32 (regOffset r) v s = .ok (hazard s) := by
  rw [memWrite32_reg, writeReg_of_busy hr v hbusy]

/-! ### Ignored buffer writes -/

/-- An access whose bytes all lie in a buffer has each of them mapped there. -/
theorem inBuffer_of_within {p : Params} {b : Buffer} {off n : Nat} (h : Within off n (bufBase b) (bufCap p b)) {j : Nat} (hj : j < n) :
    inBuffer p b (off + j) = true := by
  obtain ⟨hlow, hhigh⟩ := h
  exact (inBuffer_iff p b _).2 ⟨by omega, by omega⟩

theorem writeBuf_of_busy {b : Buffer} (hb : b ≠ .out) (off : Nat) (bs : List Byte) {s : State} (hbusy : s.status.busy = true) :
    writeBuf b off bs s = .ok (hazard s) := by
  rw [writeBuf_eq hb, unlessBusy_busy hbusy]

theorem memWrite8_buf_of_busy {s : State} (hp : s.params.wf = true) (hbusy : s.status.busy = true) {b : Buffer} (hb : b ≠ .out)
    {off : Nat} (h : Within off 1 (bufBase b) (bufCap s.params b)) (v : Byte) : memWrite8 off v s = .ok (hazard s) := by
  have hcheck : check8 s.params off = .ok b := (check8_ok_iff hp off b).2 (inBuffer_of_within h Nat.one_pos)
  rw [memWrite8_buf hcheck, writeBuf_of_busy hb _ _ hbusy]

theorem memWrite32_buf_of_busy {s : State} (hp : s.params.wf = true) (hbusy : s.status.busy = true) {b : Buffer} (hb : b ≠ .out)
    {off : Nat} (hal : off % 4 = 0) (h : Within off 4 (bufBase b) (bufCap s.params b)) (v : Word) :
    memWrite32 off v s = .ok (hazard s) := by
  have hcheck : check32 s.params off = .ok (.buf b) :=
    (check32_buf_iff hp off b).2 ⟨hal, inBuffer_of_within (j := 0) h (by decide), inBuffer_of_within h (by decide)⟩
  rw [memWrite32_buf hcheck, writeBuf_of_busy hb _ _ hbusy]

/-! ### The statement -/

/-- Settles O50: writes of the guarded registers and of PWD and IN end in `hazard`; those of CTRL and STATUS do not ask for the phase. -/
theorem busyWritesAreHazards : Obligations.BusyWritesAreHazards := by
  intro s v hp hbusy
  have hpwd : Buffer.pwd ≠ .out := by decide
  have hinp : Buffer.inp ≠ .out := by decide
  refine ⟨fun off hoff => ?_, fun off b hin => ?_, fun off hal hin => ?_, memWrite32_reg .ctrl v s, memWrite32_reg .status v s⟩
  · have hmap : off ∈ busyGuardedRegs.map regOffset := hoff
    obtain ⟨r, hr, rfl⟩ := List.mem_map.1 hmap
    exact memWrite32_reg_of_busy hr v hbusy
  · exact hin.elim (memWrite8_buf_of_busy hp hbusy hpwd · b) (memWrite8_buf_of_busy hp hbusy hinp · b)
  · exact hin.elim (memWrite32_buf_of_busy hp hbusy hpwd hal · v) (memWrite32_buf_of_busy hp hbusy hinp hal · v)

end Sys2Proof.Machine
end

section
/-! PROOFS. What each command does as a whole: which error it reports first, and its one completion (60_exceptions.md R156 to R160). -/

namespace Sys2Proof.Machine

open Sys2Proof.Claims

/-! ### Parts of the input -/

theorem take_readBytes (m : Memory) (a : Nat) {n k : Nat} (hk : k ≤ n) : (m.readBytes a n).take k = m.readBytes a k := by
  rw [Memory.readBytes, ← List.map_take, List.take_range, Nat.min_eq_left hk, Memory.readBytes]

theorem drop_readBytes (m : Memory) (a n k : Nat) : (m.readBytes a n).drop k = m.readBytes (a + k) (n - k) := by
  refine List.ext_getElem (by simp) fun i hi hi' => ?_
  simp [Nat.add_assoc]

/-- The index operand and its registers (R30). -/
theorem indexOperand_eq (s : State) : indexOperand s = s.indexHi ++ s.indexLo := rfl

/-- An input that fits IN is read the same after OUT is zero-filled. -/
theorem inputBytes_clearOut_of_fits {s : State} (hp : s.params.wf = true) (hin : s.inLen.toNat ≤ s.params.inCap) :
    inputBytes (clearOut s) = inputBytes s := by
  have hbounds := params_bounds hp
  exact inputBytes_clearOut (by rw [inBase_eq, outBase_eq]; omega)

/-- A password that fits PWD is read the same after OUT is zero-filled. -/
theorem passwordBytes_clearOut_of_fits {s : State} (hp : s.params.wf = true) (hpw : s.pwdLen.toNat ≤ s.params.pwdCap) :
    passwordBytes (clearOut s) = passwordBytes s := by
  have hbounds := params_bounds hp
  exact passwordBytes_clearOut (by rw [pwdBase_eq, outBase_eq]; omega)

/-- A password operand that is not empty by its length is not the empty sequence. -/
theorem passwordBytes_ne_nil {s : State} (h : s.pwdLen ≠ 0) : passwordBytes s ≠ [] := by
  intro hnil
  have hlen := length_passwordBytes s
  rw [hnil, List.length_nil] at hlen
  exact h (BitVec.eq_of_toNat_eq hlen.symm)

/-! ### The operand checks -/

theorem inputCheck_of_fits {s : State} (h : s.inLen.toNat ≤ s.params.inCap) : inputCheck s = none := (inputCheck_none_iff s).2 h

theorem inputCheck_of_over {s : State} (h : s.params.inCap < s.inLen.toNat) : inputCheck s = some .capacity :=
  if_pos ((inputTooLong_iff s).2 h)

theorem passwordCheck_of_ok {s : State} (h : PasswordOperandsOk s) : passwordCheck s = none := (passwordCheck_none_iff s).2 h

theorem passwordCheck_of_empty {s : State} (h : s.pwdLen = 0) : passwordCheck s = some .invalidPassword := if_pos h

theorem passwordCheck_of_over {s : State} (h : s.pwdLen ≠ 0)
    (hover : s.params.pwdCap < s.pwdLen.toNat ∨ s.params.inCap < s.inLen.toNat) : passwordCheck s = some .capacity := by
  rw [passwordCheck, if_neg h, if_pos]
  simpa only [passwordTooLong, inputTooLong, Bool.or_eq_true, decide_eq_true_eq] using hover

/-- The three outcomes of the password commands' operand checks, in the order of the table (R159). -/
theorem passwordOperands_cases (s : State) :
    s.pwdLen = 0 ∨ (s.pwdLen ≠ 0 ∧ (s.params.pwdCap < s.pwdLen.toNat ∨ s.params.inCap < s.inLen.toNat)) ∨
      PasswordOperandsOk s := by
  unfold PasswordOperandsOk
  by_cases h : s.pwdLen = 0
  · exact .inl h
  · have hfit : (s.params.pwdCap < s.pwdLen.toNat ∨ s.params.inCap < s.inLen.toNat) ∨
        s.pwdLen.toNat ≤ s.params.pwdCap ∧ s.inLen.toNat ≤ s.params.inCap := by omega
    exact .inr (hfit.imp (⟨h, ·⟩) (⟨h, ·⟩))

/-! ### The datapath does not show in the results -/

/-- DECRYPT's outcome is DecryptFn's, whatever the datapath held (R123). -/
theorem map_snd_decryptRun (P : Ports) (w pw : List Byte) (dp : Datapath) :
    (decryptRun P w pw dp).map Prod.snd = decryptFn P w pw := by
  have hsnd : (cipherBlocks P (loadDigests P pw (messageNonce w) dp) (messageCiphertext w)).2 =
      (cipherBlocks P (loadDigests P pw (messageNonce w) .zero) (messageCiphertext w)).2 := by
    rw [cipherBlocks_snd, cipherBlocks_snd]
    rfl
  unfold decryptFn decryptRun
  split
  · rfl
  · split
    · rfl
    · split
      · rfl
      · simp only [hsnd]
        split <;> rfl

theorem decryptRun_error {P : Ports} {w pw : List Byte} {e : CmdError} (h : decryptFn P w pw = .error e) (dp : Datapath) :
    decryptRun P w pw dp = .error e := by
  rw [← map_snd_decryptRun P w pw dp] at h
  cases hrun : decryptRun P w pw dp with
  | error e' =>
    rw [hrun] at h
    cases h
    rfl
  | ok r =>
    rw [hrun] at h
    cases h

theorem decryptRun_ok {P : Ports} {w pw r : List Byte} (h : decryptFn P w pw = .ok r) (dp : Datapath) :
    ∃ dp', decryptRun P w pw dp = .ok (dp', r) := by
  rw [← map_snd_decryptRun P w pw dp] at h
  cases hrun : decryptRun P w pw dp with
  | error e =>
    rw [hrun] at h
    cases h
  | ok x =>
    rw [hrun] at h
    cases h
    exact ⟨x.1, rfl⟩

/-- ENCRYPT's message is R122's, whatever the datapath held. -/
theorem encryptRun_snd (P : Ports) (d pw : List Byte) (n : Digest) (dp : Datapath) :
    (encryptRun P d pw n dp).2 = wireMessage P d pw n := by
  rw [← encryptWith_eq]
  simp only [encryptWith, encryptRun, cipherBlocks_snd]
  rfl

/-- DERIVE_KEY's key is R102's of the password and a raw nonce of 32 bytes (R104). -/
theorem key_loadBlockKey_loadDigests (P : Ports) (i : DWord) (pw : List Byte) {n : List Byte} (hn : n.length = 32)
    (dp : Datapath) :
    (loadBlockKey P i (loadDigests P pw (digestOfBytes n) dp)).key = deriveBlockKey P (P.passwordHash pw) i (P.sha256 n) := by
  have hkey : (loadBlockKey P i (loadDigests P pw (digestOfBytes n) dp)).key =
      deriveBlockKey P (P.passwordHash pw) i (P.sha256 (digestOfBytes n).toList) := rfl
  rw [hkey, toList_digestOfBytes hn]

/-! ### What a command returns -/

/-- What a command without error leaves in OUT. -/
def resultOf (i : Instr) (s : State) : List Byte :=
  match i with
  | .encrypt => wireMessage Config.ports (inputBytes s) (passwordBytes s) (nextNonce s)
  | .decrypt =>
    ((recoveredFrame Config.ports (inputBytes s) (passwordBytes s)).drop 4).take
      (lengthField (recoveredFrame Config.ports (inputBytes s) (passwordBytes s)))
  | .verify => []
  | .varint => encodeVarint (s.indexHi ++ s.indexLo)
  | .deriveKey =>
    (deriveBlockKey Config.ports (Config.ports.passwordHash (passwordBytes s)) (s.indexHi ++ s.indexLo)
      (Config.ports.sha256 (inputBytes s))).toList
  | .frame => frameBytes (inputBytes s)
  | .unframe => ((inputBytes s).drop 4).take (lengthField (inputBytes s))

/-- The VOK that a command without error leaves: VERIFY's answer, else 0 (R142, log entry 10). -/
def vokOf (i : Instr) (s : State) : Bool :=
  match i with
  | .verify => verifyMessage Config.ports (inputBytes s)
  | .encrypt | .decrypt | .varint | .deriveKey | .frame | .unframe => false

/-- The state in which a body without error ends, but for the datapath: the result written over a zero-filled OUT; ENCRYPT has made its
draw; VERIFY returns VOK alone. -/
def bodyEnd (i : Instr) (s : State) : State :=
  match i with
  | .encrypt => writeResult (resultOf .encrypt s) (drawNonce (clearOut s))
  | .verify => { clearOut s with outLen := 0, status := { s.status with vok := vokOf .verify s } }
  | .decrypt => writeResult (resultOf .decrypt s) (clearOut s)
  | .varint => writeResult (resultOf .varint s) (clearOut s)
  | .deriveKey => writeResult (resultOf .deriveKey s) (clearOut s)
  | .frame => writeResult (resultOf .frame s) (clearOut s)
  | .unframe => writeResult (resultOf .unframe s) (clearOut s)

/-- What a command's body does, if the first error that applies is the one given: it raises that error, or ends in `bodyEnd`. -/
def BodyOutcome (i : Instr) (s : State) (first : Option CmdError) : Prop :=
  match first with
  | some e => bodyOf i (clearOut s) = .error e
  | none => ∃ dp, bodyOf i (clearOut s) = .ok { bodyEnd i s with dp := dp }

/-! ### The operand checks come first -/

/-- INVALID_PASSWORD is the first row of the table (R151, R159). -/
theorem firstError_of_empty {i : Instr} (huse : usesPassword i = true) {s : State} (hempty : s.pwdLen = 0) :
    firstError i s = some .invalidPassword := by
  cases i with
  | encrypt | decrypt | deriveKey => exact if_pos hempty
  | verify | varint | frame | unframe => cases huse

/-- CAPACITY is the second row of the table (R155, R159). -/
theorem firstError_of_over {i : Instr} (huse : usesPassword i = true) {s : State} (hne : s.pwdLen ≠ 0)
    (hover : s.params.pwdCap < s.pwdLen.toNat ∨ s.params.inCap < s.inLen.toNat) : firstError i s = some .capacity := by
  cases i with
  | encrypt | decrypt | deriveKey => exact (if_neg hne).trans (if_pos hover)
  | verify | varint | frame | unframe => cases huse

/-- A password command without error has passed its operand checks. -/
theorem passwordOperandsOk_of_firstError_none {i : Instr} (huse : usesPassword i = true) {s : State}
    (hfirst : firstError i s = none) : PasswordOperandsOk s := by
  rcases passwordOperands_cases s with hempty | ⟨hne, hover⟩ | hok
  · rw [firstError_of_empty huse hempty] at hfirst
    cases hfirst
  · rw [firstError_of_over huse hne hover] at hfirst
    cases hfirst
  · exact hok

/-- The body of a password command raises what its operand checks find, before all else. -/
theorem bodyOf_of_passwordCheck {i : Instr} (huse : usesPassword i = true) {s : State} {e : CmdError}
    (hcheck : passwordCheck s = some e) : bodyOf i s = .error e := by
  cases i with
  | encrypt => simp only [bodyOf, encryptBody, hcheck]
  | decrypt => simp only [bodyOf, decryptBody, hcheck]
  | deriveKey => simp only [bodyOf, deriveKeyBody, hcheck]
  | verify | varint | frame | unframe => cases huse

/-- A password command whose operand checks fail reports that error, whatever else is wrong (R159). -/
theorem bodyOutcome_of_not_passwordOperandsOk {i : Instr} (huse : usesPassword i = true) {s : State}
    (hbad : ¬PasswordOperandsOk s) : BodyOutcome i s (firstError i s) := by
  rcases passwordOperands_cases s with hempty | ⟨hne, hover⟩ | hok
  · rw [firstError_of_empty huse hempty]
    exact bodyOf_of_passwordCheck huse (passwordCheck_of_empty hempty)
  · rw [firstError_of_over huse hne hover]
    exact bodyOf_of_passwordCheck huse (passwordCheck_of_over hne hover)
  · exact absurd hok hbad

/-- The first two rows of the table, passed. -/
theorem not_passwordOperands_error {s : State} (hok : PasswordOperandsOk s) :
    ¬s.pwdLen = 0 ∧ ¬(s.params.pwdCap < s.pwdLen.toNat ∨ s.params.inCap < s.inLen.toNat) := by
  obtain ⟨hne, hpw, hin⟩ := hok
  exact ⟨hne, not_or.2 ⟨Nat.not_lt.2 hpw, Nat.not_lt.2 hin⟩⟩

/-! ### One lemma for each command's body -/

theorem bodyOutcome_varint (s : State) : BodyOutcome .varint s (firstError .varint s) := ⟨s.dp, rfl⟩

theorem bodyOutcome_verify {s : State} (hp : s.params.wf = true) : BodyOutcome .verify s (firstError .verify s) := by
  rcases Nat.lt_or_ge s.params.inCap s.inLen.toNat with hover | hin
  · simp only [firstError, if_pos hover, BodyOutcome, bodyOf, verifyBody, inputCheck_clearOut, inputCheck_of_over hover]
  · simp only [firstError, if_neg (Nat.not_lt.2 hin), BodyOutcome, bodyOf, verifyBody, inputCheck_clearOut,
      inputCheck_of_fits hin, inputBytes_clearOut_of_fits hp hin]
    exact ⟨s.dp, rfl⟩

theorem bodyOutcome_frame {s : State} (hp : s.params.wf = true) : BodyOutcome .frame s (firstError .frame s) := by
  rcases Nat.lt_or_ge s.params.inCap s.inLen.toNat with hover | hin
  · simp only [firstError, if_pos hover, BodyOutcome, bodyOf, frameBody, inputCheck_clearOut, inputCheck_of_over hover]
  · simp only [firstError, if_neg (Nat.not_lt.2 hin), BodyOutcome, bodyOf, frameBody, inputCheck_clearOut,
      inputCheck_of_fits hin, inputBytes_clearOut_of_fits hp hin]
    exact ⟨_, rfl⟩

theorem bodyOutcome_unframe {s : State} (hp : s.params.wf = true) : BodyOutcome .unframe s (firstError .unframe s) := by
  rcases Nat.lt_or_ge s.params.inCap s.inLen.toNat with hover | hin
  · simp only [firstError, if_pos hover, BodyOutcome, bodyOf, unframeBody, inputCheck_clearOut, inputCheck_of_over hover]
  · simp only [firstError, if_neg (Nat.not_lt.2 hin), BodyOutcome, bodyOf, unframeBody, inputCheck_clearOut,
      inputCheck_of_fits hin, inputBytes_clearOut_of_fits hp hin]
    have hlen := length_inputBytes s
    by_cases hbad : s.inLen.toNat < 4 ∨ s.inLen.toNat - 4 < lengthField (inputBytes s)
    · simp only [if_pos hbad, unframeBytes_error (hlen.symm ▸ hbad)]
    · have hok : unframeBytes (inputBytes s) = .ok (resultOf .unframe s) := unframeBytes_ok (by omega) (by omega)
      simp only [if_neg hbad, hok]
      exact ⟨s.dp, rfl⟩

theorem bodyOutcome_encrypt {s : State} (hp : s.params.wf = true) : BodyOutcome .encrypt s (firstError .encrypt s) := by
  by_cases hok : PasswordOperandsOk s
  · obtain ⟨hne, hfits⟩ := not_passwordOperands_error hok
    have hcheck := passwordCheck_of_ok hok
    obtain ⟨-, hpw, hin⟩ := hok
    simp only [firstError, if_neg hne, if_neg hfits, BodyOutcome, bodyOf, encryptBody, passwordCheck_clearOut,
      hcheck, encryptRun_snd, inputBytes_clearOut_of_fits hp hin, passwordBytes_clearOut_of_fits hp hpw,
      nextNonce_clearOut]
    exact ⟨_, rfl⟩
  · exact bodyOutcome_of_not_passwordOperandsOk rfl hok

theorem bodyOutcome_deriveKey {s : State} (hp : s.params.wf = true) : BodyOutcome .deriveKey s (firstError .deriveKey s) := by
  by_cases hok : PasswordOperandsOk s
  · obtain ⟨hne, hfits⟩ := not_passwordOperands_error hok
    have hcheck := passwordCheck_of_ok hok
    obtain ⟨-, hpw, hin⟩ := hok
    by_cases hlen : s.inLen.toNat = 32
    · have hword : (clearOut s).inLen = 32 := BitVec.eq_of_toNat_eq hlen
      simp only [firstError, if_neg hne, if_neg hfits, if_neg (not_not.2 hlen), BodyOutcome, bodyOf, deriveKeyBody,
        passwordCheck_clearOut, hcheck, if_neg (not_not.2 hword),
        inputBytes_clearOut_of_fits hp hin, passwordBytes_clearOut_of_fits hp hpw, indexOperand_eq,
        key_loadBlockKey_loadDigests Config.ports _ _ ((length_inputBytes s).trans hlen)]
      exact ⟨_, rfl⟩
    · have hword : (clearOut s).inLen ≠ 32 := fun h => hlen (congrArg BitVec.toNat h)
      simp only [firstError, if_neg hne, if_neg hfits, if_pos hlen, BodyOutcome, bodyOf, deriveKeyBody,
        passwordCheck_clearOut, hcheck, if_pos hword]
  · exact bodyOutcome_of_not_passwordOperandsOk rfl hok

/-- DECRYPT's errors after the operand checks are DecryptFn's (R123, R125). -/
theorem decryptFn_eq_elim_firstError {s : State} (hok : PasswordOperandsOk s) :
    decryptFn Config.ports (inputBytes s) (passwordBytes s) =
      (firstError .decrypt s).elim (.ok (resultOf .decrypt s)) .error := by
  obtain ⟨hne, hfits⟩ := not_passwordOperands_error hok
  have hpwne := passwordBytes_ne_nil hne
  have hlength := length_inputBytes s
  simp only [firstError, if_neg hne, if_neg hfits]
  by_cases hbad : s.inLen.toNat < 64 ∨ (s.inLen.toNat - 64) % 32 ≠ 0
  · rw [if_pos hbad]
    refine decryptFn_of_not_wellFormedLength _ hpwne ?_
    rintro ⟨k, hk⟩
    omega
  · obtain ⟨k, hk⟩ : WellFormedLength (inputBytes s) := ⟨(s.inLen.toNat - 64) / 32, by omega⟩
    rw [if_neg hbad]
    by_cases hsum : ChecksumHolds Config.ports (inputBytes s)
    · have hfield : (s.inLen.toNat = 64 ∨ s.inLen.toNat - 68 <
            lengthField (recoveredFrame Config.ports (inputBytes s) (passwordBytes s))) ↔
          k = 0 ∨ 32 * k - 4 < lengthField (recoveredFrame Config.ports (inputBytes s) (passwordBytes s)) := by omega
      rw [if_neg (not_not.2 hsum), decryptFn_eq_ite hpwne hk hsum]
      simp only [hfield]
      split <;> rfl
    · rw [if_pos hsum, decryptFn_of_wellFormedLength _ hpwne ⟨k, hk⟩, if_neg hsum]
      rfl

theorem bodyOutcome_decrypt {s : State} (hp : s.params.wf = true) : BodyOutcome .decrypt s (firstError .decrypt s) := by
  by_cases hok : PasswordOperandsOk s
  · have hfn := decryptFn_eq_elim_firstError hok
    have hcheck := passwordCheck_of_ok hok
    obtain ⟨-, hpw, hin⟩ := hok
    cases hfirst : firstError .decrypt s with
    | some e =>
      rw [hfirst, Option.elim_some] at hfn
      simp only [BodyOutcome, bodyOf, decryptBody, passwordCheck_clearOut, hcheck, inputBytes_clearOut_of_fits hp hin,
        passwordBytes_clearOut_of_fits hp hpw, decryptRun_error hfn]
    | none =>
      rw [hfirst, Option.elim_none] at hfn
      obtain ⟨dp, hrun⟩ := decryptRun_ok hfn s.dp
      simp only [BodyOutcome, bodyOf, decryptBody, passwordCheck_clearOut, hcheck, inputBytes_clearOut_of_fits hp hin,
        passwordBytes_clearOut_of_fits hp hpw, clearOut_dp, hrun]
      exact ⟨dp, rfl⟩
  · exact bodyOutcome_of_not_passwordOperandsOk rfl hok

/-- The statement's table of first errors is the order of the model's checks, and without error the body ends in `bodyEnd`. -/
theorem bodyOutcome_firstError (i : Instr) {s : State} (hp : s.params.wf = true) : BodyOutcome i s (firstError i s) := by
  cases i with
  | encrypt => exact bodyOutcome_encrypt hp
  | decrypt => exact bodyOutcome_decrypt hp
  | verify => exact bodyOutcome_verify hp
  | varint => exact bodyOutcome_varint s
  | deriveKey => exact bodyOutcome_deriveKey hp
  | frame => exact bodyOutcome_frame hp
  | unframe => exact bodyOutcome_unframe hp

end Sys2Proof.Machine
end

section
/-! PROOFS. The statements about the commands' completions (60_exceptions.md R156 to R160 and the rules of the seven commands). -/

namespace Sys2Proof.Machine

open Sys2Proof.Claims

/-! ### When no error applies -/

theorem firstError_frame_none_iff (s : State) : firstError .frame s = none ↔ s.inLen.toNat ≤ s.params.inCap := by
  simp [firstError]

theorem firstError_verify_none_iff (s : State) : firstError .verify s = none ↔ s.inLen.toNat ≤ s.params.inCap := by
  simp [firstError]

theorem firstError_unframe_none_iff (s : State) :
    firstError .unframe s = none ↔
      s.inLen.toNat ≤ s.params.inCap ∧ 4 ≤ s.inLen.toNat ∧ lengthField (inputBytes s) ≤ s.inLen.toNat - 4 := by
  simp only [firstError]
  split
  · exact iff_of_false nofun (by omega)
  · split
    · exact iff_of_false nofun (by omega)
    · exact iff_of_true rfl (by omega)

theorem firstError_encrypt_none_iff (s : State) : firstError .encrypt s = none ↔ PasswordOperandsOk s := by
  refine ⟨passwordOperandsOk_of_firstError_none rfl, fun hok => ?_⟩
  obtain ⟨hne, hfits⟩ := not_passwordOperands_error hok
  exact (if_neg hne).trans (if_neg hfits)

theorem firstError_deriveKey_none_iff (s : State) :
    firstError .deriveKey s = none ↔ PasswordOperandsOk s ∧ s.inLen = 32 := by
  have hword : s.inLen = 32 ↔ s.inLen.toNat = 32 := BitVec.toNat_inj.symm
  have hrest (hok : PasswordOperandsOk s) : firstError .deriveKey s = none ↔ s.inLen = 32 := by
    obtain ⟨hne, hfits⟩ := not_passwordOperands_error hok
    simp only [firstError, if_neg hne, if_neg hfits, hword, ite_eq_right_iff, reduceCtorEq, imp_false, ne_eq, not_not]
  exact ⟨fun h => have hok := passwordOperandsOk_of_firstError_none rfl h; ⟨hok, (hrest hok).1 h⟩,
    fun ⟨hok, hlen⟩ => (hrest hok).2 hlen⟩

theorem firstError_decrypt_none_iff (s : State) :
    firstError .decrypt s = none ↔ PasswordOperandsOk s ∧ ChecksumHolds Config.ports (inputBytes s) ∧
      ∃ k, s.inLen.toNat = 64 + 32 * k ∧ 1 ≤ k ∧
        lengthField (recoveredFrame Config.ports (inputBytes s) (passwordBytes s)) ≤ 32 * k - 4 := by
  have hrest (hok : PasswordOperandsOk s) : firstError .decrypt s = none ↔
      ChecksumHolds Config.ports (inputBytes s) ∧ ∃ k, s.inLen.toNat = 64 + 32 * k ∧ 1 ≤ k ∧
        lengthField (recoveredFrame Config.ports (inputBytes s) (passwordBytes s)) ≤ 32 * k - 4 := by
    obtain ⟨hne, hfits⟩ := not_passwordOperands_error hok
    simp only [firstError, if_neg hne, if_neg hfits]
    constructor
    · intro h
      split at h
      · cases h
      · split at h
        · cases h
        next hsum =>
          split at h
          · cases h
          · exact ⟨not_not.1 hsum, (s.inLen.toNat - 64) / 32, by omega, by omega, by omega⟩
    · rintro ⟨hsum, k, hk, hpos, hfield⟩
      rw [if_neg (by omega), if_neg (not_not.2 hsum), if_neg (by omega)]
  exact ⟨fun h => have hok := passwordOperandsOk_of_firstError_none rfl h; ⟨hok, (hrest hok).1 h⟩,
    fun ⟨hok, hgood⟩ => (hrest hok).2 hgood⟩

/-! ### The two completions -/

/-- The state after a command without error. -/
def completed (i : Instr) (s : State) : State := endCommand (zeroizesPassword i) (completeOk (bodyEnd i s))

/-- The common end zeroizes the datapath, so a completion does not show what the body left in it (R36). -/
theorem endCommand_completeOk_dp (pw : Bool) (s : State) (dp : Datapath) :
    endCommand pw (completeOk { s with dp := dp }) = endCommand pw (completeOk s) := by cases pw <;> rfl

theorem exec_of_firstError_none {i : Instr} {s : State} (hp : s.params.wf = true) (hfirst : firstError i s = none) :
    exec i s = .next (completed i s) := by
  have hbody := bodyOutcome_firstError i hp
  rw [hfirst] at hbody
  obtain ⟨dp, hbody⟩ := hbody
  rw [exec_eq, runBody_ok hbody, endCommand_completeOk_dp, completed]

theorem exec_of_firstError_some {i : Instr} {s : State} {e : CmdError} (hp : s.params.wf = true)
    (hfirst : firstError i s = some e) :
    exec i s = .next (endCommand (zeroizesPassword i) (raiseError e (clearOut s))) := by
  have hbody := bodyOutcome_firstError i hp
  rw [hfirst] at hbody
  rw [exec_eq, runBody_error hbody]

/-- No completion of a command, in error or not, writes what no engine step writes. -/
theorem keptByEngine_runBody_bodyOf (pw : Bool) (i : Instr) (s : State) : KeptByEngine s (runBody pw (bodyOf i) s) := by
  obtain ⟨t, hbody, hrun⟩ | ⟨e, -, hrun⟩ := runBody_cases pw (bodyOf i) s
  · rw [hrun]
    obtain ⟨dp, bs, rfl⟩ | ⟨-, dp, bs, rfl⟩ | ⟨-, ok, rfl⟩ := bodyOf_ok_cases hbody <;> constructor <;> simp
  · rw [hrun]
    exact keptByEngine_endCommand_raiseError pw e s

/-! ### A completion without error -/

/-- What a command returns fits OUT: its capacity is IN_CAP and three blocks (R10). -/
theorem length_resultOf_le {i : Instr} {s : State} (hp : s.params.wf = true) (hfirst : firstError i s = none) :
    (resultOf i s).length ≤ outCap s.params := by
  have hbounds := params_bounds hp
  rw [outCap_eq]
  cases i with
  | encrypt =>
    obtain ⟨-, -, hin⟩ := (firstError_encrypt_none_iff s).1 hfirst
    rw [resultOf, length_wireMessage, length_inputBytes, blockCount]
    omega
  | decrypt =>
    obtain ⟨⟨-, -, hin⟩, -, k, hk, -, hfield⟩ := (firstError_decrypt_none_iff s).1 hfirst
    have htake := List.length_take_le (lengthField (recoveredFrame Config.ports (inputBytes s) (passwordBytes s)))
      ((recoveredFrame Config.ports (inputBytes s) (passwordBytes s)).drop 4)
    rw [resultOf]
    omega
  | verify => exact Nat.zero_le _
  | varint => exact length_encodeVarint_le_outCap _ _
  | deriveKey =>
    rw [resultOf, length_digest]
    omega
  | frame =>
    have hin := (firstError_frame_none_iff s).1 hfirst
    rw [resultOf, length_frameBytes, length_inputBytes, blockCount]
    omega
  | unframe =>
    obtain ⟨hin, -, hfield⟩ := (firstError_unframe_none_iff s).1 hfirst
    have htake := List.length_take_le (lengthField (inputBytes s)) ((inputBytes s).drop 4)
    rw [resultOf]
    omega

/-- The bytes at the end of a body: its result in OUT, zeros after it, everything else as it was. -/
theorem read_bodyEnd {i : Instr} {s : State} (hlen : (resultOf i s).length ≤ outCap s.params) (x : Nat) :
    (bodyEnd i s).mem.read x =
      if outBase ≤ x ∧ x < outBase + outCap s.params then (resultOf i s).getD (x - outBase) 0 else s.mem.read x := by
  cases i with
  | verify => exact read_clearOut s x
  | encrypt => exact read_writeResult (t := drawNonce (clearOut s)) rfl hlen x
  | decrypt | varint | deriveKey | frame | unframe => exact read_writeResult (t := clearOut s) rfl hlen x

theorem bodyEnd_params (i : Instr) (s : State) : (bodyEnd i s).params = s.params := by cases i <;> rfl

theorem bodyEnd_outLen (i : Instr) (s : State) : (bodyEnd i s).outLen = BitVec.ofNat 32 (resultOf i s).length := by
  cases i <;> rfl

/-- The bytes after a command without error. -/
theorem read_completed {i : Instr} {s : State} (hlen : (resultOf i s).length ≤ outCap s.params) (x : Nat) :
    (completed i s).mem.read x =
      if zeroizesPassword i = true ∧ pwdBase ≤ x ∧ x < pwdBase + s.params.pwdCap then 0
      else if outBase ≤ x ∧ x < outBase + outCap s.params then (resultOf i s).getD (x - outBase) 0 else s.mem.read x := by
  rw [completed, read_endCommand, completeOk_mem, completeOk_params, bodyEnd_params, read_bodyEnd hlen]

theorem succeeded_completed (i : Instr) (s : State) : Succeeded (completed i s) (vokOf i s) := by
  cases i <;> exact ⟨rfl, rfl, rfl, rfl, rfl⟩

theorem keptByEngine_completed {i : Instr} {s : State} (hp : s.params.wf = true) (hfirst : firstError i s = none) :
    KeptByEngine s (completed i s) := by
  have hnext := (exec_eq i s).symm.trans (exec_of_firstError_none hp hfirst)
  exact Host.Outcome.next.inj hnext ▸ keptByEngine_runBody_bodyOf _ i s

theorem oneDraw_completed_encrypt (s : State) : OneDraw s (completed .encrypt s) := ⟨rfl, rfl, rfl⟩

theorem noDraw_completed {i : Instr} (hi : i ≠ .encrypt) (s : State) : NoDraw s (completed i s) := by
  cases i with
  | encrypt => exact absurd rfl hi
  | decrypt | verify | varint | deriveKey | frame | unframe => exact ⟨rfl, rfl, rfl⟩

theorem pwdLen_completed {i : Instr} (huse : zeroizesPassword i = false) (s : State) : (completed i s).pwdLen = s.pwdLen := by
  cases i with
  | encrypt | decrypt | deriveKey => cases huse
  | verify | varint | frame | unframe => rfl

/-- PWD ends below OUT (R51). -/
theorem not_pwdByte_of_outBase_le {p : Params} (hp : p.wf = true) {x : Nat} (hx : outBase ≤ x) : ¬x < pwdBase + p.pwdCap := by
  have hbounds := params_bounds hp
  rw [outBase_eq] at hx
  rw [pwdBase_eq]
  omega

/-- A command without error leaves its result in OUT and counts it in OUT_LEN (R34). -/
theorem outHolds_completed {i : Instr} {s : State} (hp : s.params.wf = true) (hfirst : firstError i s = none) :
    OutHolds (completed i s) (resultOf i s) := by
  have hlen := length_resultOf_le hp hfirst
  have hparams : (completed i s).params = s.params := (keptByEngine_completed hp hfirst).params
  have hcount : (completed i s).outLen = BitVec.ofNat 32 (resultOf i s).length := by
    rw [completed, endCommand_outLen, completeOk_outLen, bodyEnd_outLen]
  refine ⟨?_, hparams ▸ hlen, fun j hj => ?_⟩
  · have hbounds := params_bounds hp
    rw [outCap_eq] at hlen
    rw [hcount, BitVec.toNat_ofNat, Nat.mod_eq_of_lt (by omega)]
  · rw [hparams] at hj
    rw [read_completed hlen, if_neg fun ⟨_, _, hbyte⟩ => not_pwdByte_of_outBase_le hp (Nat.le_add_right _ j) hbyte,
      if_pos ⟨Nat.le_add_right _ _, Nat.add_lt_add_left hj _⟩, Nat.add_sub_cancel_left]

/-- The whole effect of a command without error and without password. -/
theorem plainEffect_completed {i : Instr} {s : State} (hp : s.params.wf = true) (huse : zeroizesPassword i = false)
    (hfirst : firstError i s = none) : PlainEffect s (completed i s) (resultOf i s) (vokOf i s) := by
  have hi : i ≠ .encrypt := fun h => by rw [h] at huse; cases huse
  refine ⟨outHolds_completed hp hfirst, succeeded_completed i s, keptByEngine_completed hp hfirst, noDraw_completed hi s,
    pwdLen_completed huse s, fun a ha => ?_⟩
  rw [read_completed (length_resultOf_le hp hfirst), huse, if_neg (by simp), if_neg ha]

/-- The effect of a password command without error, less its RNG requests. -/
theorem passwordEffect_completed {i : Instr} {s : State} (hp : s.params.wf = true) (huse : zeroizesPassword i = true)
    (hfirst : firstError i s = none) : PasswordEffect s (completed i s) (resultOf i s) := by
  have hvok : vokOf i s = false := by
    cases i with
    | verify => cases huse
    | encrypt | decrypt | varint | deriveKey | frame | unframe => rfl
  refine ⟨outHolds_completed hp hfirst, hvok ▸ succeeded_completed i s, keptByEngine_completed hp hfirst, ?_, fun a hout hpwd => ?_⟩
  · rw [completed, huse]
    exact passwordZeroized_endCommand (bodyEnd_params i s)
  · rw [read_completed (length_resultOf_le hp hfirst), if_neg fun h => hpwd h.2, if_neg hout]

/-! ### The statements about each command -/

/-- Settles O19: the key is the block key of the operands, IN[0..32) being all of the input. -/
theorem deriveKeyCompletes : Obligations.DeriveKeyCompletes := by
  intro s hp hok hlen
  have hfirst := (firstError_deriveKey_none_iff s).2 ⟨hok, hlen⟩
  have hinput : inputBytes s = s.mem.readBytes inBase 32 := by rw [inputBytes, hlen]; rfl
  rw [← hinput]
  exact ⟨_, exec_of_firstError_none hp hfirst, passwordEffect_completed hp rfl hfirst, noDraw_completed (by decide) s⟩

/-- Settles O25: FRAME's effect, and OUT_LEN is the length of a frame. -/
theorem frameCompletes : Obligations.FrameCompletes := by
  intro s hp hin
  have hfirst := (firstError_frame_none_iff s).2 hin
  have heffect := plainEffect_completed (i := .frame) hp rfl hfirst
  refine ⟨_, exec_of_firstError_none hp hfirst, heffect, ?_⟩
  obtain ⟨⟨hcount, -, -⟩, -⟩ := heffect
  rw [hcount, resultOf, length_frameBytes, length_inputBytes, blockCount]

/-- Settles O26: the bytes after the length field of the input are read straight from IN. -/
theorem unframeCompletes : Obligations.UnframeCompletes := by
  intro s hp hin hlong hfield
  have hfirst := (firstError_unframe_none_iff s).2 ⟨hin, hlong, hfield⟩
  have hresult : resultOf .unframe s = s.mem.readBytes (inBase + 4) (lengthField (inputBytes s)) :=
    calc ((inputBytes s).drop 4).take (lengthField (inputBytes s))
      _ = (s.mem.readBytes (inBase + 4) (s.inLen.toNat - 4)).take (lengthField (inputBytes s)) := by
        conv_lhs => rw [inputBytes, drop_readBytes, ← inputBytes]
      _ = s.mem.readBytes (inBase + 4) (lengthField (inputBytes s)) := take_readBytes _ _ hfield
  rw [← hresult]
  exact ⟨_, exec_of_firstError_none hp hfirst, plainEffect_completed (i := .unframe) hp rfl hfirst⟩

/-- Settles O34: ENCRYPT's effect with its one draw, and OUT_LEN is the length of a wire message. -/
theorem encryptCompletes : Obligations.EncryptCompletes := by
  intro s hp hok
  have hfirst := (firstError_encrypt_none_iff s).2 hok
  have heffect := passwordEffect_completed (i := .encrypt) hp rfl hfirst
  refine ⟨_, exec_of_firstError_none hp hfirst, heffect, oneDraw_completed_encrypt s, ?_⟩
  obtain ⟨⟨hcount, -, -⟩, -⟩ := heffect
  rw [hcount, resultOf, length_wireMessage, length_inputBytes, blockCount]

/-- Settles O35: the hypotheses are those under which DECRYPT has no first error. -/
theorem decryptCompletes : Obligations.DecryptCompletes := by
  intro s k hp hok hlen hpos hsum hfield
  have hfirst := (firstError_decrypt_none_iff s).2 ⟨hok, hsum, k, hlen, hpos, hfield⟩
  exact ⟨_, exec_of_firstError_none hp hfirst, passwordEffect_completed (i := .decrypt) hp rfl hfirst,
    noDraw_completed (by decide) s⟩

/-- VerifyFn is the length check and the checksum check (R141). -/
theorem verifyMessage_iff (P : Ports) (w : List Byte) :
    verifyMessage P w = true ↔ WellFormedLength w ∧ ChecksumHolds P w := by
  rw [verifyMessage, Bool.and_eq_true, messageLengthOk_iff]
  exact and_congr_right fun hw => checksumMatches_iff P (length_ge_of_wellFormedLength hw)

/-- Settles O39: VERIFY's effect has no result, and its VOK is VerifyFn of the input. -/
theorem verifyCompletes : Obligations.VerifyCompletes := by
  intro s hp hin
  have hfirst := (firstError_verify_none_iff s).2 hin
  exact ⟨_, _, exec_of_firstError_none hp hfirst, plainEffect_completed (i := .verify) hp rfl hfirst,
    verifyMessage_iff Config.ports (inputBytes s)⟩

/-! ### The statements about errors -/

/-- Settles O41: the completion without error when the table finds none, and the error completion of its first error. -/
theorem firstErrorIsReported : Obligations.FirstErrorIsReported := by
  intro i s hp
  cases hfirst : firstError i s with
  | none =>
    obtain ⟨-, -, herr, -, hcode⟩ := succeeded_completed i s
    exact ⟨_, exec_of_firstError_none hp hfirst, fun _ => ⟨hcode, herr⟩, nofun⟩
  | some e =>
    obtain ⟨-, -, herr, -, hcode, -⟩ := failed_endCommand_raiseError (zeroizesPassword i) e s
    refine ⟨_, exec_of_firstError_some hp hfirst, nofun, fun e' he => ?_⟩
    cases he
    exact ⟨hcode, herr⟩

/-- An error completion of a password command changes no byte outside OUT and PWD. -/
theorem keptOutsideOutAndPwd_endCommand_raiseError (pw : Bool) (e : CmdError) (s : State) :
    KeptOutsideOutAndPwd s (endCommand pw (raiseError e (clearOut s))) := by
  intro x hout hpwd
  rw [read_endCommand_raiseError, if_neg fun h => hpwd h.2, if_neg hout]

/-- Settles O42: the error completion, with the password zeroized by the common end of a password command only. -/
theorem errorsArePrecise : Obligations.ErrorsArePrecise := by
  intro i s e hp hfirst
  refine ⟨_, exec_of_firstError_some hp hfirst, failed_endCommand_raiseError _ e s, keptByEngine_endCommand_raiseError _ e s,
    noDraw_endCommand_raiseError _ e s, fun huse => ?_, fun huse => ?_⟩
  · rw [← usesPassword_eq, huse]
    exact ⟨passwordZeroized_endCommand rfl, keptOutsideOutAndPwd_endCommand_raiseError true e s⟩
  · rw [← usesPassword_eq, huse]
    exact ⟨rfl, keptOutsideOut_endCommand_raiseError e s⟩

end Sys2Proof.Machine
end

section
/-! PROOFS. The statements about the pure functions of the codec and the cipher, and about draws (R91, R100, R105, R111, R121 to R130). -/

namespace Sys2Proof.Machine

open Sys2Proof.Claims

/-! ### The varint -/

/-- The last byte of an encoding has bit 7 clear and every other has it set, so no encoding is the beginning of another's (R78); and the
groups of seven bits make the value. -/
theorem leb_append_inj {u w : DWord} {x y : List Byte} (h : leb u ++ x = leb w ++ y) : u = w ∧ x = y := by
  induction hn : u.toNat using Nat.strong_induction_on generalizing u w with
  | _ n ih =>
    subst hn
    have hmore (v : DWord) : (v.setWidth 8 ||| 0x80 : Byte).toNat = 128 + v.toNat % 128 := by
      rw [toNat_or_0x80, BitVec.toNat_setWidth]
      omega
    have hlast {v : DWord} (hv : v.toNat < 128) : (v.setWidth 8 : Byte).toNat = v.toNat := by
      rw [BitVec.toNat_setWidth]
      omega
    rcases Nat.lt_or_ge u.toNat 128 with hu | hu <;> rcases Nat.lt_or_ge w.toNat 128 with hw | hw
    · rw [leb_of_lt hu, leb_of_lt hw] at h
      obtain ⟨hbyte, hrest⟩ := List.cons.inj h
      have hnat := congrArg BitVec.toNat hbyte
      rw [hlast hu, hlast hw] at hnat
      exact ⟨BitVec.eq_of_toNat_eq hnat, hrest⟩
    · rw [leb_of_lt hu, leb_of_le hw] at h
      have hnat := congrArg BitVec.toNat (List.cons.inj h).1
      rw [hlast hu, hmore] at hnat
      omega
    · rw [leb_of_le hu, leb_of_lt hw] at h
      have hnat := congrArg BitVec.toNat (List.cons.inj h).1
      rw [hlast hw, hmore] at hnat
      omega
    · rw [leb_of_le hu, leb_of_le hw] at h
      obtain ⟨hbyte, hrest⟩ := List.cons.inj h
      have hnat := congrArg BitVec.toNat hbyte
      rw [hmore, hmore] at hnat
      obtain ⟨hshift, hxy⟩ := ih (u >>> 7).toNat (by rw [toNat_ushiftRight_seven]; omega) hrest rfl
      have hhigh := congrArg BitVec.toNat hshift
      rw [toNat_ushiftRight_seven, toNat_ushiftRight_seven] at hhigh
      exact ⟨BitVec.eq_of_toNat_eq (by omega), hxy⟩

/-- Settles O15: Leb is uniquely decodable and ZigZag is injective; an index buffer is an encoding followed by zeros. -/
theorem varintIsUniquelyDecodable : Obligations.VarintIsUniquelyDecodable := by
  have hdecode (v w : DWord) (x y : List Byte) (h : encodeVarint v ++ x = encodeVarint w ++ y) : v = w ∧ x = y := by
    obtain ⟨hzigzag, hrest⟩ := leb_append_inj h
    exact ⟨zigZag_injective hzigzag, hrest⟩
  refine ⟨hdecode, fun i j hij => ?_⟩
  have hbytes := congrArg Vector.toList hij
  rw [toList_indexBuffer, toList_indexBuffer] at hbytes
  exact (hdecode i j _ _ hbytes).1

/-- Settles O18: ZigZag as a number, on the two halves of the range. -/
theorem indexSignedness : Obligations.IndexSignedness := by
  intro i
  have hi := i.isLt
  refine ⟨fun hlt => ?_, fun hge => ⟨?_, (length_encodeVarint i).2⟩⟩
  · rw [toNat_zigZag, if_pos hlt]
  · rw [toNat_zigZag, if_neg (Nat.not_lt.2 hge)]
    omega

/-! ### Framing -/

/-- Settles O21: division by 32, rounded up. -/
theorem blockCountBounds : Obligations.BlockCountBounds := by
  intro m
  rw [blockCount]
  refine ⟨by omega, by omega, fun p hp hm => ?_⟩
  have hbounds := params_bounds hp
  omega

/-! ### The block loop -/

/-- Settles O28: the loop's bytes are the keystream's, and it never loads PDIG or NDIG. -/
theorem cipherLoopIsPerBlock : Obligations.CipherLoopIsPerBlock := by
  intro P dp x hx
  have hsnd := cipherBlocks_snd P dp x
  obtain ⟨hpdig, hndig, -⟩ :=
    cipherLoop_keeps P (x.length / 32) 0 { dp with nblk := BitVec.ofNat 64 (x.length / 32) } x (Nat.mul_div_le _ _)
  exact ⟨hsnd, by rw [hsnd, length_keystreamXor P _ _ hx], hpdig, hndig⟩

/-! ### The checksum -/

/-- Settles O33: a matching checksum field is the digest of the rest, so messages that agree in the rest agree in both parts. -/
theorem tamperingNeedsACollision : Obligations.TamperingNeedsACollision := by
  intro P w w' _ _ hne hv hv'
  obtain ⟨-, hsum⟩ := (verifyMessage_iff P w).1 hv
  obtain ⟨-, hsum'⟩ := (verifyMessage_iff P w').1 hv'
  refine ⟨fun hrest => hne ?_, hsum'.symm, fun hfield => ?_⟩
  · have hfield : w.take 32 = w'.take 32 := by rw [← hsum, ← hsum', hrest]
    rw [← List.take_append_drop 32 w, ← List.take_append_drop 32 w', hfield, hrest]
  · exact Vector.toList_inj.1 (hsum.trans (hfield.trans hsum'.symm))

/-- Settles O40: VerifyFn fails at the length check or at the checksum, DecryptFn's second and third checks; when it holds, only Unframe
is left. -/
theorem verifyAgreesWithDecrypt : Obligations.VerifyAgreesWithDecrypt := by
  intro P w pw hpw
  refine ⟨fun hbad => ?_, fun hgood => ?_⟩
  · have hfails : ¬(WellFormedLength w ∧ ChecksumHolds P w) := fun h => by
      rw [(verifyMessage_iff P w).2 h] at hbad
      cases hbad
    by_cases hw : WellFormedLength w
    · rw [if_pos ((messageLengthOk_iff w).2 hw), decryptFn_of_wellFormedLength P hpw hw, if_neg fun h => hfails ⟨hw, h⟩]
    · rw [if_neg (mt (messageLengthOk_iff w).1 hw), decryptFn_of_not_wellFormedLength P hpw hw]
  · obtain ⟨⟨k, hk⟩, hsum⟩ := (verifyMessage_iff P w).1 hgood
    exact ⟨⟨k, hk⟩, (wrongPasswordIsNotIntegrity P w pw k hpw hk hsum).1, decryptFn_of_checksumHolds hpw ⟨k, hk⟩ hsum⟩

/-! ### The draws of ENCRYPT -/

/-- ENCRYPT draws exactly when its operand checks pass, before any buffer is read (R124, R126). -/
theorem draws_runBody_encrypt (pw : Bool) (s : State) :
    (PasswordOperandsOk s → OneDraw s (runBody pw (bodyOf .encrypt) s)) ∧
      (¬PasswordOperandsOk s → NoDraw s (runBody pw (bodyOf .encrypt) s)) := by
  refine ⟨fun hok => ?_, fun hbad => ?_⟩
  · have hcheck : passwordCheck (clearOut s) = none := passwordCheck_of_ok hok
    obtain ⟨t, hbody, hdraw⟩ : ∃ t, bodyOf .encrypt (clearOut s) = .ok t ∧ OneDraw s t := by
      simp only [bodyOf, encryptBody, hcheck]
      exact ⟨_, rfl, rfl, rfl, rfl⟩
    obtain ⟨hevents, hsupply, hcount⟩ := hdraw
    rw [runBody_ok hbody]
    simp only [OneDraw, endCommand_events, endCommand_rngSupply, endCommand_rngCount]
    exact ⟨hevents, hsupply, hcount⟩
  · obtain ⟨e, hcheck⟩ := Option.ne_none_iff_exists'.1 (mt (passwordCheck_none_iff s).1 hbad)
    rw [runBody_error (bodyOf_of_passwordCheck (i := .encrypt) rfl hcheck)]
    exact noDraw_endCommand_raiseError pw e s

/-- No other command draws (R126). -/
theorem noDraw_runBody_bodyOf (pw : Bool) {i : Instr} (hi : i ≠ .encrypt) (s : State) : NoDraw s (runBody pw (bodyOf i) s) := by
  obtain ⟨t, hbody, hrun⟩ | ⟨e, -, hrun⟩ := runBody_cases pw (bodyOf i) s
  · rw [hrun]
    obtain ⟨dp, bs, rfl⟩ | ⟨henc, -⟩ | ⟨-, ok, rfl⟩ := bodyOf_ok_cases hbody
    · simp [NoDraw]
    · exact absurd henc hi
    · simp [NoDraw]
  · rw [hrun]
    exact noDraw_endCommand_raiseError pw e s

/-- What OUT holds is what the host reads as the result (R34). -/
theorem resultBytes_of_outHolds {t : State} {bs : List Byte} (h : OutHolds t bs) : resultBytes t = bs := by
  obtain ⟨hcount, hcap, hbytes⟩ := h
  refine List.ext_getElem ((length_readBytes _ _ _).trans hcount) fun j hj hj' => ?_
  simp only [resultBytes, getElem_readBytes]
  rw [hbytes j (by omega), List.getD_eq_getElem _ _ hj']

/-- The nonce field of a wire message is the nonce (R76, R122). -/
theorem take_drop_wireMessage (P : Ports) (d pw : List Byte) (n : Digest) :
    ((wireMessage P d pw n).drop 32).take 32 = n.toList := by
  simp only [wireMessage, List.append_assoc, List.drop_left' (length_digest _), List.take_left' (length_digest _)]

/-- Settles O36: ENCRYPT's checks decide the draw; the head of the supply is the draw, and stands in the message's nonce field. -/
theorem rngRequestsAreExact : Obligations.RngRequestsAreExact := by
  refine ⟨fun i s => ⟨_, exec_eq i s, ?_⟩, fun s n rest hp hok => ?_⟩
  · by_cases hi : i = .encrypt
    · subst hi
      obtain ⟨hone, hnone⟩ := draws_runBody_encrypt (zeroizesPassword .encrypt) s
      exact ⟨fun h => hone h.2, fun h => hnone fun hok => h ⟨rfl, hok⟩⟩
    · exact ⟨fun h => absurd h.1 hi, fun _ => noDraw_runBody_bodyOf _ hi s⟩
  · obtain ⟨t, hexec, ⟨hout, -⟩, ⟨hevents, -⟩, hlen⟩ := encryptCompletes { s with rngSupply := n :: rest } hp hok
    have hresult := resultBytes_of_outHolds hout
    refine ⟨t, hexec, hevents, ?_⟩
    calc t.mem.readBytes (outBase + 32) 32
      _ = ((resultBytes t).drop 32).take 32 := by rw [resultBytes, drop_readBytes, take_readBytes _ _ (by omega)]
      _ = n.toList := by rw [hresult, take_drop_wireMessage]; rfl

/-! ### The round trip on the machine -/

/-- Settles O38: the input of DECRYPT is the wire message, whose checksum matches and whose recovered frame is the frame of the data. -/
theorem encryptedMessageDecryptsOnTheMachine : Obligations.EncryptedMessageDecryptsOnTheMachine := by
  intro s t u hp hok hexec hpu hlen hfits hbytes hpwd hpwdfits
  obtain ⟨t', hexec', ⟨hout, -⟩, -, hcount⟩ := encryptCompletes s hp hok
  obtain rfl : t' = t := Host.Outcome.next.inj (hexec'.symm.trans hexec)
  have hinput : inputBytes u = wireMessage Config.ports (inputBytes s) (passwordBytes u) (nextNonce s) := by
    rw [hpwd, ← resultBytes_of_outHolds hout, inputBytes, resultBytes, hlen]
    refine List.ext_getElem (by simp) fun j hj _ => ?_
    rw [getElem_readBytes, getElem_readBytes, hbytes j (by simpa using hj)]
  obtain ⟨hne, -, hin⟩ := hok
  have hpwdne : u.pwdLen ≠ 0 := fun h => hne (BitVec.eq_of_toNat_eq (by
    rw [← length_passwordBytes, ← hpwd, length_passwordBytes, h]))
  have hdata : (inputBytes s).length < 2 ^ 32 := by
    rw [length_inputBytes]
    exact s.inLen.isLt
  have hframe : recoveredFrame Config.ports (inputBytes u) (passwordBytes u) = frameBytes (inputBytes s) := by
    rw [hinput, recoveredFrame_wireMessage]
  have hfield : lengthField (frameBytes (inputBytes s)) = (inputBytes s).length := lengthField_le32_length_append hdata _
  obtain ⟨v, hdec, ⟨hholds, hsucc, -⟩, -⟩ :=
    decryptCompletes u ((4 + s.inLen.toNat + 31) / 32) hpu ⟨hpwdne, hpwdfits, hfits⟩ (by rw [hlen, hcount]) (by omega)
      (by rw [hinput]; exact checksumHolds_wireMessage _ _ _ _)
      (by rw [hframe, hfield, length_inputBytes]; omega)
  have hrecovered : ((frameBytes (inputBytes s)).drop 4).take (inputBytes s).length = inputBytes s := take_drop_le32_append _ _ _
  rw [hframe, hfield, hrecovered] at hholds
  exact ⟨v, hdec, hsucc, hholds⟩

end Sys2Proof.Machine
end

section
/-! PROOFS. The statements about turns, the engine's turn, reset and decoding (R22, R62, R71, R156, R180, R195). -/

namespace Sys2Proof.Machine

open Sys2Proof.Claims

/-! ### Decoding -/

/-- Settles O4: a command's own word decodes to it, and it is a 32-bit word. -/
theorem decodeInvertsEncode : Obligations.DecodeInvertsEncode := by
  intro i _
  have hdec : decode (encode i) = .ok i := (decode_eq_ok_iff _ i).2 rfl
  have hword : (encode i).toNat % 2 ^ 32 = (encode i).toNat := Nat.mod_eq_of_lt (encode i).isLt
  refine ⟨hdec, ?_⟩
  rw [decodeTableWord, hword, if_pos (encode i).isLt, BitVec.ofNat_toNat, BitVec.setWidth_eq, hdec]
  rfl

/-- Settles O5: the legal words are the table's, the illegal ones are evaluated. -/
theorem writtenOutWordsDecode : Obligations.WrittenOutWordsDecode :=
  ⟨(decode_eq_ok_iff _ _).2 rfl, (decode_eq_ok_iff _ _).2 rfl, (decode_eq_ok_iff _ _).2 rfl, rfl, rfl, rfl⟩

/-! ### The engine's turn -/

theorem engineTurn_of_idle {s : State} (hidle : s.status.busy = false) : engineTurn s = .next s := by
  rw [engineTurn, hidle]
  rfl

/-- A BUSY engine runs the command its latched word decodes to (R156). -/
theorem engineTurn_of_decode_ok {s : State} {i : Instr} (hbusy : s.status.busy = true) (hdec : decode s.cmd = .ok i) :
    engineTurn s = exec i s := by
  obtain ⟨hidle, -⟩ | ⟨-, i', hi', hturn⟩ | ⟨-, e, he, -⟩ := engineTurn_cases s
  · rw [hidle] at hbusy
    cases hbusy
  · rw [hdec] at hi'
    cases hi'
    exact hturn
  · rw [hdec] at he
    cases he

/-- A BUSY engine's turn is a command's completion without error, or an error completion; it never stops the machine (R156, R158). -/
theorem engineTurn_of_busy {s : State} (hbusy : s.status.busy = true) :
    ∃ t, engineTurn s = .next t ∧
      ((∃ pw i u, bodyOf i (clearOut s) = .ok u ∧ t = endCommand pw (completeOk u)) ∨
        ∃ pw e, t = endCommand pw (raiseError e (clearOut s))) ∧ KeptByEngine s t := by
  cases hdec : decode s.cmd with
  | ok i =>
    refine ⟨_, (engineTurn_of_decode_ok hbusy hdec).trans (exec_eq i s), ?_, keptByEngine_runBody_bodyOf _ i s⟩
    obtain ⟨u, hbody, hrun⟩ | ⟨e, -, hrun⟩ := runBody_cases (zeroizesPassword i) (bodyOf i) s
    · exact .inl ⟨_, i, u, hbody, hrun⟩
    · exact .inr ⟨_, e, hrun⟩
  | error e =>
    exact ⟨_, engineTurn_of_decode_error hbusy ⟨e, hdec⟩, .inr ⟨_, _, rfl⟩, keptByEngine_endCommand_raiseError _ _ s⟩

/-- A code that a command can raise is not NONE (R150). -/
theorem errorCode_ne_zero (e : CmdError) : errorCode e ≠ 0#4 := by cases e <;> decide

/-- A BUSY engine's turn leaves BUSY 0 and DONE 1, and ERR tells whether the code is NONE (R156, R158). -/
theorem engineTurn_completes {s : State} (hbusy : s.status.busy = true) :
    ∃ t, engineTurn s = .next t ∧ t.status.busy = false ∧ t.status.done = true ∧ t.status.err = (t.errCode != 0) ∧
      KeptByEngine s t := by
  obtain ⟨t, hturn, ⟨pw, i, u, -, rfl⟩ | ⟨pw, e, rfl⟩, hkept⟩ := engineTurn_of_busy hbusy
  · refine ⟨_, hturn, ?_, ?_, ?_, hkept⟩ <;> simp [noError]
  · refine ⟨_, hturn, ?_, ?_, ?_, hkept⟩ <;> simp [errorCode_ne_zero]

/-- IN lies above PWD and below OUT (R51). -/
theorem inByte_bounds {p : Params} (hp : p.wf = true) {j : Nat} (hj : j < p.inCap) :
    pwdBase + p.pwdCap ≤ inBase + j ∧ inBase + j < outBase := by
  have hbounds := params_bounds hp
  rw [pwdBase_eq, inBase_eq, outBase_eq]
  omega

/-- No completion writes IN: the result goes to OUT, and the common end zeroizes PWD alone. -/
theorem read_runBody_bodyOf_inp (pw : Bool) (i : Instr) {s : State} (hp : s.params.wf = true) {j : Nat} (hj : j < s.params.inCap) :
    (runBody pw (bodyOf i) s).mem.read (inBase + j) = s.mem.read (inBase + j) := by
  obtain ⟨hlow, hhigh⟩ := inByte_bounds hp hj
  obtain ⟨u, hrun, hparams, -, hread⟩ := runBody_bodyOf_eq_endCommand pw i s
  rw [hrun, read_endCommand, hparams, if_neg (by omega), hread _ hhigh]

/-- Settles O8: a command or an illegal word, each completes, and neither writes IN. -/
theorem engineAlwaysCompletes : Obligations.EngineAlwaysCompletes := by
  intro s hp hbusy
  obtain ⟨t, hturn, hidle, hdone, herr, hkept⟩ := engineTurn_completes hbusy
  refine ⟨t, hturn, hidle, hdone, herr, hkept, fun j hj => ?_⟩
  cases hdec : decode s.cmd with
  | ok i =>
    rw [engineTurn_of_decode_ok hbusy hdec, exec_eq] at hturn
    rw [← Host.Outcome.next.inj hturn, read_runBody_bodyOf_inp _ i hp hj]
  | error e =>
    rw [engineTurn_of_decode_error hbusy ⟨e, hdec⟩] at hturn
    rw [← Host.Outcome.next.inj hturn]
    exact read_raiseError_of_lt .illegalCommand s (inByte_bounds hp hj).2

/-! ### Turns -/

theorem whoMoves_of_cons {s : State} {x : Turn} {rest : List Turn} (h : s.schedule = x :: rest) : whoMoves s = x := by
  rw [whoMoves, h]
  rfl

theorem takeTurn_of_cons {s : State} {x : Turn} {rest : List Turn} (h : s.schedule = x :: rest) :
    takeTurn s = { s with schedule := rest } := by
  rw [takeTurn, h, List.tail_cons]

/-- Without a schedule the phase decides who moves (log entry 1). -/
theorem whoMoves_of_nil {s : State} (h : s.schedule = []) : whoMoves s = if s.status.busy then .engine else .host := by
  rw [whoMoves, h]
  rfl

/-- A turn taken off an empty schedule leaves everything as it is. -/
theorem takeTurn_of_nil {s : State} (h : s.schedule = []) : takeTurn s = s := by
  rw [takeTurn, h, List.tail_nil, ← h]

/-- When the host moves, the step is its turn (R62). -/
theorem step_of_host {s : State} (h : whoMoves s = .host) : step s = hostTurn (takeTurn s) := by
  rw [step, h, runTurn]

/-- When the platform's reset is next, the step is the reset (R180). -/
theorem step_of_reset {s : State} (h : whoMoves s = .reset) : step s = .next (platformReset (takeTurn s)) := by
  rw [step, h, runTurn]

theorem hostTurn_of_nil {s : State} (h : s.script = []) : hostTurn s = .next s := by
  rw [hostTurn, h]

/-- Settles O6: the engine's turn on a word that decodes. -/
theorem stepRunsDecodedCommand : Obligations.StepRunsDecodedCommand := by
  intro s i hmoves hbusy hdec _
  exact (step_of_engine hmoves).trans (engineTurn_of_decode_ok (s := takeTurn s) hbusy hdec)

/-- Settles O7: the head of the schedule, or the phase when there is none, decides; in IDLE neither agent has anything to do. -/
theorem turnsFollowTheSchedule : Obligations.TurnsFollowTheSchedule := by
  refine ⟨fun s x rest hsched => ?_, fun s hsched hbusy => ?_, fun s => engineTurn_of_idle, fun s hidle hsched hscript => ?_⟩
  · rw [step, whoMoves_of_cons hsched, takeTurn_of_cons hsched]
  · have hmoves : whoMoves s = .engine := (whoMoves_of_nil hsched).trans (if_pos hbusy)
    rw [step_of_engine hmoves, takeTurn_of_nil hsched]
  · have hmoves : whoMoves s = .host := (whoMoves_of_nil hsched).trans (if_neg (ne_true_of_eq_false hidle))
    rw [step_of_host hmoves, takeTurn_of_nil hsched, hostTurn_of_nil hscript]

/-! ### Reset -/

/-- A register after the platform's reset is a register of the reset state (R180). -/
theorem readReg_platformReset (s : State) (r : Reg) : readReg r (platformReset s) = 0 :=
  calc readReg r (platformReset s) = readReg r (State.resetWith s.params) := by cases r <;> rfl
    _ = 0 := readReg_resetWith s.params r

/-- Settles O2: the reset turn is the platform's reset of the state that has taken its turn. -/
theorem resetTurnEntersResetState : Obligations.ResetTurnEntersResetState := fun _ hmoves =>
  ⟨_, step_of_reset hmoves, rfl, readReg_platformReset _, read_nil, rfl, rfl, rfl, rfl, rfl⟩

/-- Settles O10: the default sizes are R10's, the byte store is empty and every flag is clear. -/
theorem resetIsLegal : Obligations.ResetIsLegal := by
  constructor <;> decide

end Sys2Proof.Machine
end

section
/-! PROOFS. The statements about the host's accesses, bus errors and WAIT (20_memory.md R50 to R60, R80, R184 to R188). -/

namespace Sys2Proof.Machine

open Sys2Proof.Claims

/-! ### Register reads -/

/-- Only a read of OUT_LEN can use up a busy value; a read of another register changes nothing (R60). -/
theorem memRead32_reg_of_ne {r : Reg} (hr : r ≠ .outLen) (s : State) : memRead32 (regOffset r) s = .ok (readReg r s, s) := by
  have hsame : afterRead (.reg r) s = s := by simp [afterRead, readsFree, hr]
  rw [memRead32_reg, hsame]

theorem memRead32_outLen_of_idle {s : State} (hidle : s.status.busy = false) :
    memRead32 (regOffset .outLen) s = .ok (s.outLen, s) := by
  rw [memRead32_reg, readReg, afterRead, readsFree, hidle]
  rfl

/-- A read of a result while BUSY leaves the state without the value it used up (R185). -/
theorem afterRead_of_busy {r : Region} (hr : r = .reg .outLen ∨ r = .buf .out) {s : State} (hbusy : s.status.busy = true) :
    afterRead r s = drawBusyValue s := by
  have hfree : readsFree r s = true := by
    rcases hr with rfl | rfl <;> simp [readsFree, hbusy]
  rw [afterRead, if_pos hfree]

/-- A register made of flags shows each in its bit (R25). -/
theorem toNat_statusWord (st : Status) :
    (statusWord st).toNat = st.busy.toNat + 2 * st.done.toNat + 4 * st.err.toNat + 8 * st.vok.toNat + 16 * st.haz.toNat := by
  obtain ⟨busy, done, err, vok, haz⟩ := st
  revert busy done err vok haz
  decide

theorem toNat_errCodeWord (c : BitVec 4) : (errCodeWord c).toNat = c.toNat := by
  rw [errCodeWord, BitVec.toNat_setWidth]
  omega

/-- Settles O53: 0x008 is STATUS, and its write is `statusAfterWrite`. -/
theorem statusBits : Obligations.StatusBits :=
  ⟨memRead32_reg_of_ne (r := .status) (by decide), toNat_statusWord,
    fun s v => ⟨_, memWrite32_reg .status v s, rfl, rfl, rfl, rfl, rfl, rfl⟩⟩

/-- Settles O60: the registers at the three offsets, two of which ignore a write. -/
theorem resultRegisters : Obligations.ResultRegisters := fun s v =>
  ⟨memRead32_reg_of_ne (r := .cmd) (by decide) s,
    ⟨_, memRead32_reg_of_ne (r := .errCode) (by decide) s, toNat_errCodeWord s.errCode⟩,
    memRead32_outLen_of_idle,
    memWrite32_reg .errCode v s, memWrite32_reg .outLen v s⟩

/-- Settles O49: OUT_LEN reads the head of the supply; a legal BUSY state has the flags and the code clear. -/
theorem busyReads : Obligations.BusyReads := by
  intro s v rest hlegal hbusy
  have hflags := hlegal.busyFlags
  simp only [busyFlagsClear, hbusy, Bool.not_true, Bool.false_or, Bool.and_eq_true, Bool.not_eq_true', beq_iff_eq] at hflags
  obtain ⟨⟨⟨hdone, herr⟩, hvok⟩, hcode⟩ := hflags
  have hread {r : Reg} (hr : r ≠ .outLen) {w : Word} (hw : readReg r s = w) : memRead32 (regOffset r) s = .ok (w, s) :=
    hw ▸ memRead32_reg_of_ne hr s
  refine ⟨?_, hread (r := .status) (by decide) ?_, hread (r := .errCode) (by decide) ?_, hread (r := .ctrl) (by decide) ?_,
    hread (r := .cmd) (by decide) rfl, hread (r := .pwdLen) (by decide) rfl, hread (r := .inLen) (by decide) rfl,
    hread (r := .indexLo) (by decide) rfl, hread (r := .indexHi) (by decide) rfl⟩
  · have hstate : ({ s with busySupply := v :: rest } : State).status.busy = true := hbusy
    refine (memRead32_reg .outLen _).trans ?_
    rw [afterRead_of_busy (.inl rfl) hstate, readReg, if_pos hstate]
    rfl
  · rw [readReg, statusWord, hbusy, hdone, herr, hvok]
    cases s.status.haz <;> rfl
  · rw [readReg, hcode]
    rfl
  · rw [readReg, ctrlWord]
    cases s.ctrlIE <;> rfl

/-! ### Register writes in IDLE -/

theorem memWrite32_reg_of_idle {r : Reg} {v : Word} {s : State} {f : State → State} (hidle : s.status.busy = false)
    (hwrite : writeReg r v s = unlessBusy f s) : memWrite32 (regOffset r) v s = .ok (f s) := by
  rw [memWrite32_reg, hwrite, unlessBusy_idle hidle]

/-- CTRL keeps bit 0 of what is written (R23). -/
theorem ctrlWord_ieAfterWrite (v : Word) : ctrlWord (ieAfterWrite v) = v &&& 1 := by
  have hbit : v.getLsbD 0 = decide (v.toNat % 2 = 1) := Nat.testBit_zero v.toNat
  have hlow : (v &&& 1).toNat = v.toNat % 2 := (BitVec.toNat_and v 1).trans (Nat.and_one_is_mod v.toNat)
  refine BitVec.eq_of_toNat_eq ?_
  rw [hlow, ctrlWord, ieAfterWrite, hbit, flagBit]
  rcases Nat.mod_two_eq_zero_or_one v.toNat with h | h <;> rw [h] <;> rfl

/-- Settles O52: each operand register is written through `unlessBusy`, which writes it in IDLE; the read gives the field back. -/
theorem idleRegisterWrites : Obligations.IdleRegisterWrites := by
  intro s v hidle
  have hpwdLen : memWrite32 0x010 v s = .ok { s with pwdLen := v } :=
    memWrite32_reg_of_idle (r := .pwdLen) (f := fun t => { t with pwdLen := v }) hidle rfl
  have hinLen : memWrite32 0x014 v s = .ok { s with inLen := v } :=
    memWrite32_reg_of_idle (r := .inLen) (f := fun t => { t with inLen := v }) hidle rfl
  have hindexLo : memWrite32 0x020 v s = .ok { s with indexLo := v } :=
    memWrite32_reg_of_idle (r := .indexLo) (f := fun t => { t with indexLo := v }) hidle rfl
  have hindexHi : memWrite32 0x024 v s = .ok { s with indexHi := v } :=
    memWrite32_reg_of_idle (r := .indexHi) (f := fun t => { t with indexHi := v }) hidle rfl
  have hctrl : memWrite32 0x000 v s = .ok { s with ctrlIE := v.getLsbD 0 } := memWrite32_reg .ctrl v s
  refine ⟨hpwdLen, hinLen, hindexLo, hindexHi, hctrl, memWrite32_reg .errCode v s, memWrite32_reg .outLen v s,
    fun off hoff => ?_, _, hctrl, ?_⟩
  · simp only [List.mem_cons, List.not_mem_nil, or_false] at hoff
    rcases hoff with rfl | rfl | rfl | rfl
    · exact ⟨_, hpwdLen, memRead32_reg_of_ne (r := .pwdLen) (by decide) _⟩
    · exact ⟨_, hinLen, memRead32_reg_of_ne (r := .inLen) (by decide) _⟩
    · exact ⟨_, hindexLo, memRead32_reg_of_ne (r := .indexLo) (by decide) _⟩
    · exact ⟨_, hindexHi, memRead32_reg_of_ne (r := .indexHi) (by decide) _⟩
  · rw [← ctrlWord_ieAfterWrite]
    exact memRead32_reg_of_ne (r := .ctrl) (by decide) _

/-! ### Words of IN -/

/-- Settles O46: the write is a store of the word's little-endian bytes, and reading them back makes the word. -/
theorem inputWordsAreLittleEndian : Obligations.InputWordsAreLittleEndian := by
  intro s o v hp hidle hal ho
  have hinp : Buffer.inp ≠ .out := by decide
  have hword : check32 s.params (inBase + o) = .ok (.buf .inp) := check32_bufBase_add (b := .inp) hp hal ho
  have hwrite : memWrite32 (inBase + o) v s = .ok { s with mem := s.mem.store (inBase + o) (le32 v) } := by
    rw [memWrite32_buf hword, writeBuf_eq hinp, unlessBusy_idle hidle]
  refine ⟨_, hwrite, rfl, fun j hj => ?_, fun a ha => ?_, ?_, fun j hj => ?_⟩
  · rw [read_store, length_le32, if_pos ⟨Nat.le_add_right _ _, Nat.add_lt_add_left hj _⟩, Nat.add_sub_cancel_left,
      toNat_getD_le32 v hj]
  · rw [read_store, length_le32, if_neg ha]
  · have hback : (s.mem.store (inBase + o) (le32 v)).readBytes (inBase + o) 4 = le32 v := readBytes_store _ _ _
    refine (memRead32_buf (s := { s with mem := s.mem.store (inBase + o) (le32 v) }) hword hinp).trans ?_
    simp only [readBuf32, hback, wordOfLe_le32]
  · have hbyte : check8 s.params (inBase + o + j) = .ok .inp := by
      rw [Nat.add_assoc]
      exact check8_bufBase_add (b := .inp) hp (by rw [bufCap]; omega)
    exact memRead8_buf (s := { s with mem := s.mem.store (inBase + o) (le32 v) }) hbyte hinp

/-! ### Accesses to OUT -/

/-- A 1-byte read of OUT: its byte in IDLE, the low byte of the next busy value while BUSY (R59, R185). -/
theorem memRead8_out {s : State} {off : Nat} (hcheck : check8 s.params off = .ok .out) :
    memRead8 off s = .ok (if s.status.busy then ((nextBusyValue s).setWidth 8, drawBusyValue s) else (s.mem.read off, s)) := by
  rw [memRead8, hcheck, Except.map, readBuf8, afterRead, readsFree]
  cases s.status.busy <;> rfl

/-- A 4-byte read of OUT: the little-endian word of its bytes in IDLE, the next busy value while BUSY (R55, R59, R185). -/
theorem memRead32_out {s : State} {off : Nat} (hcheck : check32 s.params off = .ok (.buf .out)) :
    memRead32 off s =
      .ok (if s.status.busy then (nextBusyValue s, drawBusyValue s) else (wordOfLe (s.mem.readBytes off 4), s)) := by
  rw [memRead32, hcheck, Except.map, readRegion, readBuf32, afterRead, readsFree]
  cases s.status.busy <;> rfl

/-- A 4-byte access that starts in OUT reaches no other region (R53). -/
theorem eq_out_of_check32_ok {p : Params} (hp : p.wf = true) {off : Nat} (hin : inBuffer p .out off = true) {r : Region}
    (hcheck : check32 p off = .ok r) : r = .buf .out := by
  have hbounds := params_bounds hp
  obtain ⟨hlow, hhigh⟩ : outBase ≤ off ∧ off < outBase + outCap p := (inBuffer_iff p .out off).1 hin
  rw [outBase_eq] at hlow
  cases r with
  | reg r =>
    have hoff := (check32_reg_iff p off r).1 hcheck
    cases r <;> simp only [regOffset] at hoff <;> omega
  | buf b =>
    obtain ⟨-, hb, -⟩ := (check32_buf_iff hp off b).1 hcheck
    obtain ⟨-, hend⟩ := (inBuffer_iff p b off).1 hb
    cases b with
    | out => rfl
    | pwd | inp =>
      simp only [bufBase, bufCap, pwdBase_eq, inBase_eq] at hend
      omega

/-- Settles O48: every access in OUT passes its check as one of OUT, or fails it; reads ask for the phase, writes fail in both. -/
theorem outputAccess : Obligations.OutputAccess := by
  intro s o v rest b hp ho
  have hbyte : check8 s.params (outBase + o) = .ok .out := check8_bufBase_add (b := .out) hp ho
  refine ⟨fun hidle => ?_, fun hbusy => ?_, fun hal hfit => ?_, ?_, ?_⟩
  · rw [memRead8_out hbyte, hidle]
    rfl
  · refine (memRead8_out (s := { s with busySupply := v :: rest }) hbyte).trans ?_
    rw [if_pos hbusy]
    rfl
  · have hword : check32 s.params (outBase + o) = .ok (.buf .out) := check32_bufBase_add (b := .out) hp hal hfit
    refine ⟨fun hidle => ⟨wordOfLe (s.mem.readBytes (outBase + o) 4), ?_, fun j hj => ?_⟩, fun hbusy => ?_⟩
    · rw [memRead32_out hword, hidle]
      rfl
    · rw [toNat_wordOfLe_div_mod _ hj, getD_readBytes _ _ _ _ hj]
    · refine (memRead32_out (s := { s with busySupply := v :: rest }) hword).trans ?_
      rw [if_pos hbusy]
      rfl
  · exact ⟨_, memWrite8_buf hbyte b⟩
  · cases hcheck : check32 s.params (outBase + o) with
    | error f => exact ⟨f, by rw [memWrite32, hcheck]⟩
    | ok r =>
      obtain rfl := eq_out_of_check32_ok hp (inBuffer_bufBase_add (b := .out) ho) hcheck
      exact ⟨_, memWrite32_buf hcheck v⟩

/-! ### What a host access does -/

/-- Everything a host access that is no bus error does before it is answered: a read leaves the state, or uses up one busy value; a write
goes to a register, or stores its bytes inside PWD or IN unless the engine is BUSY. -/
theorem hostAccess_effect {a : Access} {s t : State} (hp : s.params.wf = true) (h : hostAccess a s = .ok t) :
    ∃ x u, t = respond x u ∧
      ((u = s ∨ u = drawBusyValue s) ∨ (∃ r v, a = .write32 (regOffset r) v ∧ u = writeReg r v s) ∨
        ∃ b off bs, b ≠ .out ∧ (∀ j, j < bs.length → inBuffer s.params b (off + j) = true) ∧
          u = unlessBusy (fun w => { w with mem := w.mem.store off bs }) s) := by
  have hread (r : Region) : afterRead r s = s ∨ afterRead r s = drawBusyValue s := (afterRead_cases r s).imp_right And.right
  obtain ⟨off, b, -, -, rfl⟩ | ⟨off, r, -, -, rfl⟩ | ⟨off, v, b, u, -, hcheck, hwrite, rfl⟩ | ⟨r, v, rfl, rfl⟩ |
    ⟨off, v, b, u, -, hcheck, hwrite, rfl⟩ := hostAccess_cases h
  · exact ⟨_, _, rfl, .inl (hread _)⟩
  · exact ⟨_, _, rfl, .inl (hread _)⟩
  · have hb := (writeBuf_ok hwrite).1
    rw [writeBuf_eq hb] at hwrite
    refine ⟨_, _, rfl, .inr (.inr ⟨b, off, [v], hb, fun j hj => ?_, (Except.ok.inj hwrite).symm⟩)⟩
    obtain rfl : j = 0 := Nat.lt_one_iff.1 hj
    exact (check8_ok_iff hp off b).1 hcheck
  · exact ⟨_, _, rfl, .inr (.inl ⟨r, v, rfl, rfl⟩)⟩
  · have hb := (writeBuf_ok hwrite).1
    rw [writeBuf_eq hb] at hwrite
    refine ⟨_, _, rfl, .inr (.inr ⟨b, off, le32 v, hb, fun j hj => ?_, (Except.ok.inj hwrite).symm⟩)⟩
    obtain ⟨-, hfirst, hlast⟩ := (check32_buf_iff hp off b).1 hcheck
    rw [inBuffer_iff] at hfirst hlast ⊢
    rw [length_le32] at hj
    omega

/-- Settles O55: a read leaves the state or uses up one busy value, and is answered. -/
theorem readsHaveNoSideEffect : Obligations.ReadsHaveNoSideEffect := by
  intro s t off a ha h
  have hkept (r : Region) (x : Response) : respond x (afterRead r s) = { s with
      responses := (respond x (afterRead r s)).responses
      busySupply := (respond x (afterRead r s)).busySupply
      busyCount := (respond x (afterRead r s)).busyCount } ∧
      (respond x (afterRead r s)).responses.length = s.responses.length + 1 := by
    obtain hsame | ⟨-, hdraw⟩ := afterRead_cases r s
    · rw [hsame, respond_responses, List.length_append]
      exact ⟨rfl, rfl⟩
    · rw [hdraw, respond_responses, List.length_append]
      exact ⟨rfl, rfl⟩
  obtain ⟨o, b, -, -, rfl⟩ | ⟨o, r, -, -, rfl⟩ | ⟨o, v, b, u, rfl, -⟩ | ⟨r, v, rfl, -⟩ | ⟨o, v, b, u, rfl, -⟩ :=
    hostAccess_cases h
  · exact hkept _ _
  · exact hkept _ _
  · rcases ha with ha | ha <;> cases ha
  · rcases ha with ha | ha <;> cases ha
  · rcases ha with ha | ha <;> cases ha

/-! ### What a host access leaves of the results -/

/-- No register write changes a buffer or OUT_LEN, and only an accepted CMD write clears ERR_CODE and VOK (R188). -/
theorem writeReg_results (r : Reg) (v : Word) (s : State) :
    (writeReg r v s).outLen = s.outLen ∧ (writeReg r v s).mem = s.mem ∧
      ((r = .cmd → s.status.busy = true) →
        (writeReg r v s).errCode = s.errCode ∧ (writeReg r v s).status.vok = s.status.vok) := by
  cases r with
  | ctrl | status | errCode | outLen => exact ⟨rfl, rfl, fun _ => ⟨rfl, rfl⟩⟩
  | cmd =>
    obtain ⟨hidle, hwrite⟩ | ⟨hbusy, hwrite⟩ := unlessBusy_cases (startCommand v) s
    · rw [writeReg, hwrite, hidle]
      exact ⟨rfl, rfl, fun h => absurd (h rfl) (by decide)⟩
    · rw [writeReg, hwrite]
      exact ⟨rfl, rfl, fun _ => ⟨rfl, rfl⟩⟩
  | pwdLen | inLen | indexLo | indexHi =>
    rw [writeReg, unlessBusy]
    split <;> exact ⟨rfl, rfl, fun _ => ⟨rfl, rfl⟩⟩

/-- A buffer that the host may write has no byte in OUT (R51). -/
theorem not_inBuffer_out {p : Params} (hp : p.wf = true) {b : Buffer} (hb : b ≠ .out) {x : Nat} (hx : inBuffer p b x = true) :
    ¬(outBase ≤ x ∧ x < outBase + outCap p) := by
  intro hout
  have hsome := (regionAt_buf_iff hp b x).2 hx
  rw [(regionAt_buf_iff hp .out x).2 ((inBuffer_iff p .out x).2 hout)] at hsome
  cases hsome
  exact hb rfl

/-- Storing bytes inside PWD or IN changes no byte of OUT. -/
theorem read_store_of_out {p : Params} (hp : p.wf = true) {b : Buffer} (hb : b ≠ .out) {off : Nat} {bs : List Byte}
    (hin : ∀ j, j < bs.length → inBuffer p b (off + j) = true) (m : Memory) {x : Nat}
    (hx : outBase ≤ x ∧ x < outBase + outCap p) : (m.store off bs).read x = m.read x := by
  rw [read_store, if_neg]
  rintro ⟨hlow, hhigh⟩
  have hbyte := hin (x - off) (by omega)
  rw [Nat.add_sub_cancel' hlow] at hbyte
  exact not_inBuffer_out hp hb hbyte hx

/-- Settles O56: reads and writes of PWD and IN leave the results; so does every register write but the start. -/
theorem resultsLastUntilTheNextStart : Obligations.ResultsLastUntilTheNextStart := by
  intro s t a hp h
  have hout {j : Nat} (hj : j < outCap s.params) : outBase ≤ outBase + j ∧ outBase + j < outBase + outCap s.params :=
    ⟨Nat.le_add_right _ _, Nat.add_lt_add_left hj _⟩
  obtain ⟨x, u, rfl, (rfl | rfl) | ⟨r, v, rfl, rfl⟩ | ⟨b, off, bs, hb, hin, rfl⟩⟩ := hostAccess_effect hp h
  · exact ⟨rfl, fun _ _ => rfl, fun _ => ⟨rfl, rfl⟩⟩
  · exact ⟨rfl, fun _ _ => rfl, fun _ => ⟨rfl, rfl⟩⟩
  · obtain ⟨hlen, hmem, hflags⟩ := writeReg_results r v s
    refine ⟨hlen, fun j _ => by rw [respond_mem, hmem], fun hstart => hflags fun hr => ?_⟩
    subst hr
    exact hstart v rfl
  · obtain ⟨-, hwrite⟩ | ⟨-, hwrite⟩ := unlessBusy_cases (fun w : State => { w with mem := w.mem.store off bs }) s
    · rw [hwrite]
      exact ⟨rfl, fun j hj => read_store_of_out hp hb hin s.mem (hout hj), fun _ => ⟨rfl, rfl⟩⟩
    · rw [hwrite]
      exact ⟨rfl, fun _ _ => rfl, fun _ => ⟨rfl, rfl⟩⟩

/-! ### Bus errors -/

/-- The aligned offsets inside the defined registers are the registers' own (R51). -/
theorem exists_regOffset_iff (off : Nat) : (∃ r, off = regOffset r) ↔ off % 4 = 0 ∧ RegisterByte off := by
  unfold RegisterByte
  constructor
  · rintro ⟨r, rfl⟩
    cases r <;> simp [regOffset]
  · rintro ⟨hal, hreg⟩
    have hoff : off = 0x00 ∨ off = 0x04 ∨ off = 0x08 ∨ off = 0x0C ∨ off = 0x10 ∨ off = 0x14 ∨ off = 0x18 ∨ off = 0x20 ∨
        off = 0x24 := by omega
    rcases hoff with rfl | rfl | rfl | rfl | rfl | rfl | rfl | rfl | rfl
    exacts [⟨.ctrl, rfl⟩, ⟨.cmd, rfl⟩, ⟨.status, rfl⟩, ⟨.errCode, rfl⟩, ⟨.pwdLen, rfl⟩, ⟨.inLen, rfl⟩, ⟨.outLen, rfl⟩,
      ⟨.indexLo, rfl⟩, ⟨.indexHi, rfl⟩]

theorem within_one_iff (p : Params) (b : Buffer) (off : Nat) :
    Within off 1 (bufBase b) (bufCap p b) ↔ inBuffer p b off = true := by
  rw [inBuffer_iff, Within]
  omega

theorem within_four_iff (p : Params) (b : Buffer) (off : Nat) :
    Within off 4 (bufBase b) (bufCap p b) ↔ inBuffer p b off = true ∧ inBuffer p b (off + 3) = true := by
  rw [inBuffer_iff, inBuffer_iff, Within]
  omega

/-- A 1-byte access passes its check exactly on a byte of a buffer (R52). -/
theorem exists_check8_ok_iff {p : Params} (hp : p.wf = true) (off : Nat) :
    (∃ b, check8 p off = .ok b) ↔
      Within off 1 pwdBase p.pwdCap ∨ Within off 1 inBase p.inCap ∨ Within off 1 outBase (p.inCap + 96) := by
  have hbuf (b : Buffer) : check8 p off = .ok b ↔ Within off 1 (bufBase b) (bufCap p b) :=
    (check8_ok_iff hp off b).trans (within_one_iff p b off).symm
  simp only [hbuf]
  constructor
  · rintro ⟨b, hb⟩
    cases b with
    | pwd => exact .inl hb
    | inp => exact .inr (.inl hb)
    | out => exact .inr (.inr hb)
  · rintro (hb | hb | hb)
    exacts [⟨.pwd, hb⟩, ⟨.inp, hb⟩, ⟨.out, hb⟩]

theorem check32_buf_iff_within {p : Params} (hp : p.wf = true) (off : Nat) (b : Buffer) :
    check32 p off = .ok (.buf b) ↔ off % 4 = 0 ∧ Within off 4 (bufBase b) (bufCap p b) :=
  (check32_buf_iff hp off b).trans (and_congr_right' (within_four_iff p b off).symm)

/-- A 1-byte read passes exactly when its check does; a 1-byte write must not be to OUT either (R54, R59). -/
theorem hostAccess_read8_ok_iff (off : Nat) (s : State) :
    (∃ t, hostAccess (.read8 off) s = .ok t) ↔ ∃ b, check8 s.params off = .ok b := by
  rw [hostAccess, memRead8]
  cases check8 s.params off <;> simp [Except.map]

theorem hostAccess_read32_ok_iff (off : Nat) (s : State) :
    (∃ t, hostAccess (.read32 off) s = .ok t) ↔ ∃ r, check32 s.params off = .ok r := by
  rw [hostAccess, memRead32]
  cases check32 s.params off <;> simp [Except.map]

theorem hostAccess_write8_ok_iff (off : Nat) (v : Byte) (s : State) :
    (∃ t, hostAccess (.write8 off v) s = .ok t) ↔ ∃ b, check8 s.params off = .ok b ∧ b ≠ .out := by
  rw [hostAccess, memWrite8]
  cases check8 s.params off with
  | error f => simp [Except.map]
  | ok b => cases b <;> simp [writeBuf, Except.map]

theorem hostAccess_write32_ok_iff (off : Nat) (v : Word) (s : State) :
    (∃ t, hostAccess (.write32 off v) s = .ok t) ↔ ∃ r, check32 s.params off = .ok r ∧ r ≠ .buf .out := by
  rw [hostAccess, memWrite32]
  cases check32 s.params off with
  | error f => simp [Except.map]
  | ok r =>
    cases r with
    | reg r => simp [writeRegion, Except.map]
    | buf b => cases b <;> simp [writeRegion, writeBuf, Except.map]

/-- The accesses that pass their checks are the ones the rules allow (R52 to R54). -/
theorem hostAccess_ok_iff {s : State} (hp : s.params.wf = true) (a : Access) :
    (∃ t, hostAccess a s = .ok t) ↔ AccessAllowed s.params a := by
  have hreg (off : Nat) : (∃ r, check32 s.params off = .ok (.reg r)) ↔ off % 4 = 0 ∧ RegisterByte off := by
    simp only [check32_reg_iff, exists_regOffset_iff]
  have hbuf := check32_buf_iff_within hp
  cases a with
  | read8 off => exact (hostAccess_read8_ok_iff off s).trans (exists_check8_ok_iff hp off)
  | write8 off v =>
    rw [hostAccess_write8_ok_iff]
    simp only [check8_ok_iff hp, ← within_one_iff]
    constructor
    · rintro ⟨b, hb, hne⟩
      cases b with
      | pwd => exact .inl hb
      | inp => exact .inr hb
      | out => exact absurd rfl hne
    · rintro (hb | hb)
      exacts [⟨.pwd, hb, by decide⟩, ⟨.inp, hb, by decide⟩]
  | read32 off =>
    rw [hostAccess_read32_ok_iff]
    constructor
    · rintro ⟨r | b, hcheck⟩
      · exact ((hreg off).1 ⟨r, hcheck⟩).imp_right .inl
      · refine ((hbuf off b).1 hcheck).imp_right fun hb => .inr ?_
        cases b with
        | pwd => exact .inl hb
        | inp => exact .inr (.inl hb)
        | out => exact .inr (.inr hb)
    · rintro ⟨hal, hb | hb | hb | hb⟩
      · obtain ⟨r, hcheck⟩ := (hreg off).2 ⟨hal, hb⟩
        exact ⟨_, hcheck⟩
      exacts [⟨_, (hbuf off .pwd).2 ⟨hal, hb⟩⟩, ⟨_, (hbuf off .inp).2 ⟨hal, hb⟩⟩, ⟨_, (hbuf off .out).2 ⟨hal, hb⟩⟩]
  | write32 off v =>
    rw [hostAccess_write32_ok_iff]
    constructor
    · rintro ⟨r | b, hcheck, hne⟩
      · exact ((hreg off).1 ⟨r, hcheck⟩).imp_right .inl
      · refine ((hbuf off b).1 hcheck).imp_right fun hb => .inr ?_
        cases b with
        | pwd => exact .inl hb
        | inp => exact .inr hb
        | out => exact absurd rfl hne
    · rintro ⟨hal, hb | hb | hb⟩
      · obtain ⟨r, hcheck⟩ := (hreg off).2 ⟨hal, hb⟩
        exact ⟨_, hcheck, by simp⟩
      exacts [⟨_, (hbuf off .pwd).2 ⟨hal, hb⟩, by simp⟩, ⟨_, (hbuf off .inp).2 ⟨hal, hb⟩, by simp⟩]

/-- A host with an access to do steps to the state the access gives. -/
theorem step_access_ok {s t : State} {a : Access} {rest : List HostLine} (hmoves : whoMoves s = .host)
    (hscript : s.script = .access a :: rest) (h : hostAccess a { takeTurn s with script := rest } = .ok t) : step s = .next t := by
  rw [step_of_host hmoves, hostTurn, takeTurn_script, hscript]
  simp only [runHostLine, h]

/-- A bus error is a fault of the host step (R54). -/
theorem step_access_error {s : State} {a : Access} {rest : List HostLine} {f : Fault} (hmoves : whoMoves s = .host)
    (hscript : s.script = .access a :: rest) (h : hostAccess a { takeTurn s with script := rest } = .error f) :
    step s = .fault f := by
  rw [step_of_host hmoves, hostTurn, takeTurn_script, hscript]
  simp only [runHostLine, h]

/-- Settles O44: the access answers next exactly when it passes its checks, which ask for the sizes alone. -/
theorem busErrorsAreExact : Obligations.BusErrorsAreExact := by
  intro s a rest hp hmoves hscript
  have hok : (∃ t, hostAccess a { takeTurn s with script := rest } = .ok t) ↔ AccessAllowed s.params a :=
    hostAccess_ok_iff (s := { takeTurn s with script := rest }) hp a
  rw [← hok]
  cases haccess : hostAccess a { takeTurn s with script := rest } with
  | ok t => exact ⟨fun _ => ⟨t, step_access_ok hmoves hscript haccess⟩, fun h => absurd ⟨t, rfl⟩ h⟩
  | error f => exact ⟨fun ⟨_, h⟩ => (nomatch h), fun _ => ⟨f, step_access_error hmoves hscript haccess⟩⟩

/-- An engine turn never stops the machine. -/
theorem engineTurn_next (s : State) : ∃ t, engineTurn s = .next t := by
  cases hbusy : s.status.busy with
  | false => exact ⟨s, engineTurn_of_idle hbusy⟩
  | true =>
    obtain ⟨t, hturn, -⟩ := engineTurn_completes hbusy
    exact ⟨t, hturn⟩

/-- A host line that fails is an access that fails: WAIT and RESULT read registers (R80). -/
theorem runHostLine_error {l : HostLine} {s : State} {f : Fault} (h : runHostLine l s = .error f) :
    ∃ a, l = .access a ∧ hostAccess a s = .error f := by
  cases l with
  | access a => exact ⟨a, rfl, h⟩
  | wait =>
    rw [runHostLine_wait] at h
    cases h
  | result =>
    rw [runHostLine_result] at h
    cases h

/-- Settles O45: engine turns and resets answer next, and a host turn faults only on an access that fails. -/
theorem onlyBusErrorsStop : Obligations.OnlyBusErrorsStop := by
  intro s hp
  obtain ⟨hmoves, hstep⟩ | ⟨-, hstep⟩ | ⟨-, hstep⟩ := step_cases s
  · obtain ⟨-, hturn⟩ | ⟨l, rest, -, t, -, hturn⟩ | ⟨l, rest, hscript, f, hline, hturn⟩ := hostTurn_cases (takeTurn s)
    · rw [hstep, hturn]
      exact ⟨nofun, nofun⟩
    · rw [hstep, hturn]
      exact ⟨nofun, nofun⟩
    · obtain ⟨a, rfl, haccess⟩ := runHostLine_error hline
      rw [hstep, hturn]
      refine ⟨nofun, fun _ _ => ⟨hmoves, a, rest, hscript, fun hallowed => ?_⟩⟩
      obtain ⟨t, ht⟩ := (hostAccess_ok_iff (s := { takeTurn s with script := rest }) hp a).2 hallowed
      rw [haccess] at ht
      cases ht
  · obtain ⟨t, hturn⟩ := engineTurn_next (takeTurn s)
    rw [hstep, hturn]
    exact ⟨nofun, nofun⟩
  · rw [hstep]
    exact ⟨nofun, nofun⟩

/-! ### WAIT -/

/-- WAIT ends on the values of STATUS that show BUSY = 0 and DONE = 1 (R80). -/
theorem waitDone_statusWord (st : Status) : waitDone (statusWord st) = (!st.busy && st.done) := by
  obtain ⟨busy, done, err, vok, haz⟩ := st
  revert busy done err vok haz
  decide

/-- A host turn at a WAIT reads STATUS, and goes past the WAIT if its condition holds (R80). -/
theorem hostTurn_wait {s : State} {rest : List HostLine} (hscript : s.script = .wait :: rest) :
    hostTurn s = .next (respond (.word (statusWord s.status))
      (if !s.status.busy && s.status.done then { s with script := rest } else s)) := by
  have hstay : ({ s with script := HostLine.wait :: rest } : State) = s := by rw [← hscript]
  rw [hostTurn, hscript]
  simp only [runHostLine_wait, waitDone_statusWord, hstay]

/-- The last two steps of a WAIT: the engine completes, and the next read of STATUS lets the host go on. -/
theorem run_two_of_wait {s : State} {rest : List HostLine} (hbusy : s.status.busy = true) (hscript : s.script = .wait :: rest)
    (hsched : s.schedule = []) :
    ∃ t, Sys2Proof.core.run 2 s = .next t ∧ t.script = rest ∧ t.status.busy = false ∧ t.status.done = true ∧
      t.responses.length = s.responses.length + 1 := by
  obtain ⟨-, hengine, -⟩ := turnsFollowTheSchedule
  obtain ⟨u, hturn, hidle, hdone, -, hkept⟩ := engineTurn_completes hbusy
  have hmoves : whoMoves u = .host := (whoMoves_of_nil (hkept.schedule.trans hsched)).trans (if_neg (ne_true_of_eq_false hidle))
  have hread : step u = .next (respond (.word (statusWord u.status)) { u with script := rest }) := by
    rw [step_of_host hmoves, takeTurn_of_nil (hkept.schedule.trans hsched), hostTurn_wait (hkept.script.trans hscript), hidle,
      hdone]
    rfl
  refine ⟨_, (core_run_next ((hengine s hsched hbusy).trans hturn) 1).trans (core_run_next hread 0), rfl, hidle, hdone, ?_⟩
  rw [respond_responses, List.length_append, hkept.responses]
  rfl

/-- Settles O58: each scheduled host turn reads a BUSY engine and leaves the WAIT to do; then the engine moves. -/
theorem waitEnds : Obligations.WaitEnds := by
  intro s n rest hbusy hscript hsched
  induction n generalizing s with
  | zero => exact run_two_of_wait hbusy hscript hsched
  | succ n ih =>
    have hmoves : whoMoves s = .host := whoMoves_of_cons hsched
    have htake : takeTurn s = { s with schedule := List.replicate n .host } := takeTurn_of_cons hsched
    have hread : step s =
        .next (respond (.word (statusWord s.status)) { s with schedule := List.replicate n .host }) := by
      rw [step_of_host hmoves, hostTurn_wait (s := takeTurn s) hscript, takeTurn_status, hbusy, htake]
      rfl
    obtain ⟨t, hrun, hrest, hidle, hdone, hlen⟩ :=
      ih (respond (.word (statusWord s.status)) { s with schedule := List.replicate n .host }) hbusy hscript rfl
    refine ⟨t, (core_run_next hread (n + 2)).trans hrun, hrest, hidle, hdone, ?_⟩
    simp only [respond_responses, List.length_append, List.length_singleton] at hlen
    omega

end Sys2Proof.Machine
end

section
/-! PROOFS. The invariant: every step keeps a legal state legal. -/

namespace Sys2Proof.Machine

open Sys2Proof.Claims

/-! ### The byte store of a legal state -/

/-- What `Legal` asks of the byte store, in terms of reads: the store is canonical, a byte outside the mapped buffers is 0x00, and so is
every byte of OUT from OUT_LEN, here `n`, on (R34, R51). -/
structure MemoryLegal (p : Params) (m : Memory) (n : Nat) : Prop where
  canonical : m.wf = true
  mapped : ∀ a, m.read a ≠ 0 → ∃ b, inBuffer p b a = true
  fits : n ≤ outCap p
  tail : ∀ a, outBase + n ≤ a → a < outBase + outCap p → m.read a = 0

/-- In a canonical store what holds of every listed offset holds of every offset with a byte other than 0x00. -/
theorem forall_mem_iff_forall_read {m : Memory} (h : m.wf = true) (Q : Nat → Prop) :
    (∀ c ∈ m, Q c.1) ↔ ∀ a, m.read a ≠ 0 → Q a := by
  constructor
  · intro hall a ha
    obtain ⟨c, hc, rfl⟩ := (exists_mem_iff h a).2 ha
    exact hall c hc
  · intro hall c hc
    exact hall c.1 ((exists_mem_iff h c.1).1 ⟨c, hc, rfl⟩)

theorem bytesMapped_iff {s : State} (h : s.mem.wf = true) :
    bytesMapped s = true ↔ ∀ a, s.mem.read a ≠ 0 → ∃ b, inBuffer s.params b a = true := by
  have hsome (a : Nat) : (∃ b, inBuffer s.params b a = true) ↔
      (inBuffer s.params .pwd a || inBuffer s.params .inp a || inBuffer s.params .out a) = true := by
    simp only [Bool.or_eq_true]
    constructor
    · rintro ⟨b, hb⟩
      cases b with
      | pwd => exact .inl (.inl hb)
      | inp => exact .inl (.inr hb)
      | out => exact .inr hb
    · rintro ((hb | hb) | hb)
      exacts [⟨_, hb⟩, ⟨_, hb⟩, ⟨_, hb⟩]
  simp only [hsome]
  rw [← forall_mem_iff_forall_read h fun a =>
    (inBuffer s.params .pwd a || inBuffer s.params .inp a || inBuffer s.params .out a) = true]
  exact List.all_eq_true

theorem outTailZero_iff {s : State} (h : s.mem.wf = true) :
    outTailZero s = true ↔ s.outLen.toNat ≤ outCap s.params ∧
      ∀ a, outBase + s.outLen.toNat ≤ a → a < outBase + outCap s.params → s.mem.read a = 0 := by
  have hcell (a : Nat) : (!inBuffer s.params .out a || decide (a < outBase + s.outLen.toNat)) = true ↔
      ¬(outBase + s.outLen.toNat ≤ a ∧ a < outBase + outCap s.params) := by
    have hin : inBuffer s.params .out a = true ↔ outBase ≤ a ∧ a < outBase + outCap s.params := inBuffer_iff _ _ _
    rw [Bool.or_eq_true, Bool.not_eq_true', ← Bool.not_eq_true, hin, decide_eq_true_eq]
    omega
  rw [outTailZero, Bool.and_eq_true, decide_eq_true_eq, List.all_eq_true]
  simp only [hcell]
  rw [forall_mem_iff_forall_read h fun a => ¬(outBase + s.outLen.toNat ≤ a ∧ a < outBase + outCap s.params)]
  exact and_congr_right' (forall_congr' fun a => by rw [not_imp_not, and_imp])

/-- The three conditions of `Legal` on the byte store are `MemoryLegal`. -/
theorem memoryLegal_iff (s : State) :
    MemoryLegal s.params s.mem s.outLen.toNat ↔ s.mem.wf = true ∧ bytesMapped s = true ∧ outTailZero s = true := by
  constructor
  · rintro ⟨hwf, hmapped, hfits, htail⟩
    exact ⟨hwf, (bytesMapped_iff hwf).2 hmapped, (outTailZero_iff hwf).2 ⟨hfits, htail⟩⟩
  · rintro ⟨hwf, hmapped, hout⟩
    obtain ⟨hfits, htail⟩ := (outTailZero_iff hwf).1 hout
    exact ⟨hwf, (bytesMapped_iff hwf).1 hmapped, hfits, htail⟩

theorem Legal.memoryLegal {s : State} (h : Legal s) : MemoryLegal s.params s.mem s.outLen.toNat :=
  (memoryLegal_iff s).2 ⟨h.canonical, h.mapped, h.outTail⟩

/-- Storing bytes inside PWD or IN keeps the byte store legal. -/
theorem MemoryLegal.store {p : Params} {m : Memory} {n : Nat} (h : MemoryLegal p m n) (hp : p.wf = true) {b : Buffer}
    (hb : b ≠ .out) {off : Nat} {bs : List Byte} (hin : ∀ j, j < bs.length → inBuffer p b (off + j) = true) :
    MemoryLegal p (m.store off bs) n := by
  refine ⟨wf_store _ _ h.canonical, fun a ha => ?_, h.fits, fun a hlow hhigh => ?_⟩
  · by_cases hstored : off ≤ a ∧ a < off + bs.length
    · have hbyte := hin (a - off) (by omega)
      rw [Nat.add_sub_cancel' hstored.1] at hbyte
      exact ⟨b, hbyte⟩
    · rw [read_store, if_neg hstored] at ha
      exact h.mapped a ha
  · rw [read_store_of_out hp hb hin m ⟨by omega, hhigh⟩]
    exact h.tail a hlow hhigh

/-! ### Building legal states -/

/-- A state is legal that differs from a legal one in no buffer, no result, no code and no flag but HAZ, and has DONE only if that one
has. -/
theorem Legal.of_same {s t : State} (h : Legal s) (hparams : t.params = s.params) (hmem : t.mem = s.mem)
    (hout : t.outLen = s.outLen) (hbusy : t.status.busy = s.status.busy) (hdone : t.status.done = true → s.status.done = true)
    (herr : t.status.err = s.status.err) (hvok : t.status.vok = s.status.vok) (hcode : t.errCode = s.errCode)
    (hdp : t.dp = s.dp) : Legal t := by
  have hmemory := h.memoryLegal
  rw [← hparams, ← hmem, ← hout, memoryLegal_iff] at hmemory
  obtain ⟨hwf, hmapped, htail⟩ := hmemory
  refine ⟨hparams ▸ h.params, hwf, hmapped, htail, ?_, ?_, ?_, ?_⟩
  · have hflags := h.busyFlags
    rw [busyFlagsClear] at hflags ⊢
    rw [hbusy, herr, hvok, hcode]
    cases hd : t.status.done with
    | false =>
      simp only [Bool.or_eq_true, Bool.and_eq_true] at hflags ⊢
      exact hflags.imp_right fun ⟨⟨⟨_, he⟩, hv⟩, hc⟩ => ⟨⟨⟨rfl, he⟩, hv⟩, hc⟩
    | true => rwa [hdone hd] at hflags
  · have hreport := h.errFlag
    rw [errorReported] at hreport ⊢
    rwa [herr, hcode, hout, hvok]
  · have hdefined := h.errCode
    rw [errCodeDefined] at hdefined ⊢
    rwa [hcode]
  · have hzero := h.datapath
    rw [datapathZero] at hzero ⊢
    rwa [hdp]

/-- An IDLE state is legal with a legal byte store, a code of R150 that ERR tells of, nothing returned with an error, and the datapath
zero. -/
theorem legal_of_idle {t : State} (hp : t.params.wf = true) (hmem : MemoryLegal t.params t.mem t.outLen.toNat)
    (hidle : t.status.busy = false) (herr : t.status.err = (t.errCode != 0))
    (hnothing : t.status.err = true → t.outLen = 0 ∧ t.status.vok = false) (hcode : t.errCode ≤ 5) (hdp : t.dp = .zero) :
    Legal t := by
  obtain ⟨hwf, hmapped, htail⟩ := (memoryLegal_iff t).1 hmem
  refine ⟨hp, hwf, hmapped, htail, ?_, ?_, decide_eq_true hcode, beq_iff_eq.2 hdp⟩
  · rw [busyFlagsClear, hidle]
    rfl
  · rw [errorReported, ← herr, beq_self_eq_true, Bool.true_and]
    cases h : t.status.err with
    | false => rfl
    | true =>
      obtain ⟨hlen, hvok⟩ := hnothing h
      rw [hlen, hvok]
      rfl

/-! ### Host turns -/

theorem legal_hazard {s : State} (h : Legal s) : Legal (hazard s) := h.of_same rfl rfl rfl rfl id rfl rfl rfl rfl

theorem legal_respond {s : State} (h : Legal s) (x : Response) : Legal (respond x s) :=
  h.of_same rfl rfl rfl rfl id rfl rfl rfl rfl

theorem legal_drawBusyValue {s : State} (h : Legal s) : Legal (drawBusyValue s) := h.of_same rfl rfl rfl rfl id rfl rfl rfl rfl

theorem legal_withScript {s : State} (h : Legal s) (script : List HostLine) : Legal { s with script := script } :=
  h.of_same rfl rfl rfl rfl id rfl rfl rfl rfl

/-- A start sets BUSY and clears the other flags and the code together (R157). -/
theorem legal_startCommand {s : State} (h : Legal s) (v : Word) : Legal (startCommand v s) :=
  ⟨h.params, h.canonical, h.mapped, h.outTail, rfl, rfl, rfl, h.datapath⟩

/-- A write of PWD_LEN, IN_LEN, INDEX or CMD keeps the state legal if it does in IDLE. -/
theorem legal_unlessBusy {s : State} {f : State → State} (h : Legal s) (hf : s.status.busy = false → Legal (f s)) :
    Legal (unlessBusy f s) := by
  obtain ⟨hidle, hwrite⟩ | ⟨-, hwrite⟩ := unlessBusy_cases f s
  · exact hwrite ▸ hf hidle
  · exact hwrite ▸ legal_hazard h

theorem legal_writeReg {s : State} (h : Legal s) (r : Reg) (v : Word) : Legal (writeReg r v s) := by
  cases r with
  | ctrl | errCode | outLen => exact h.of_same rfl rfl rfl rfl id rfl rfl rfl rfl
  | status => exact h.of_same rfl rfl rfl rfl (fun hdone => (Bool.and_eq_true_iff.1 hdone).1) rfl rfl rfl rfl
  | cmd => exact legal_unlessBusy h fun _ => legal_startCommand h v
  | pwdLen | inLen | indexLo | indexHi =>
    rw [writeReg]
    refine legal_unlessBusy h fun _ => ?_
    exact h.of_same rfl rfl rfl rfl id rfl rfl rfl rfl

theorem legal_store {s : State} (h : Legal s) {b : Buffer} (hb : b ≠ .out) {off : Nat} {bs : List Byte}
    (hin : ∀ j, j < bs.length → inBuffer s.params b (off + j) = true) : Legal { s with mem := s.mem.store off bs } := by
  obtain ⟨hwf, hmapped, htail⟩ :=
    (memoryLegal_iff { s with mem := s.mem.store off bs }).1 (h.memoryLegal.store h.params hb hin)
  exact ⟨h.params, hwf, hmapped, htail, h.busyFlags, h.errFlag, h.errCode, h.datapath⟩

theorem legal_hostAccess {a : Access} {s t : State} (h : Legal s) (haccess : hostAccess a s = .ok t) : Legal t := by
  obtain ⟨x, u, rfl, (rfl | rfl) | ⟨r, v, -, rfl⟩ | ⟨b, off, bs, hb, hin, rfl⟩⟩ := hostAccess_effect h.params haccess
  · exact legal_respond h x
  · exact legal_respond (legal_drawBusyValue h) x
  · exact legal_respond (legal_writeReg h r v) x
  · exact legal_respond (legal_unlessBusy h fun _ => legal_store h hb hin) x

theorem legal_runHostLine {l : HostLine} {s t : State} (h : Legal s) (hline : runHostLine l s = .ok t) : Legal t := by
  cases l with
  | access a => exact legal_hostAccess h hline
  | wait =>
    rw [runHostLine_wait] at hline
    cases hline
    refine legal_respond ?_ _
    split
    · exact h
    · exact legal_withScript h _
  | result =>
    rw [runHostLine_result] at hline
    cases hline
    obtain hsame | ⟨-, hdraw⟩ := afterRead_cases (.reg .outLen) s
    · rw [hsame]
      exact legal_respond (legal_withScript h _) _
    · rw [hdraw]
      exact legal_respond (legal_withScript (legal_drawBusyValue h) _) _

theorem legal_hostTurn {s t : State} (h : Legal s) (hturn : hostTurn s = .next t) : Legal t := by
  obtain ⟨-, hnext⟩ | ⟨l, rest, -, u, hline, hnext⟩ | ⟨l, rest, -, f, -, hfault⟩ := hostTurn_cases s
  · rw [hnext] at hturn
    exact Host.Outcome.next.inj hturn ▸ h
  · rw [hnext] at hturn
    exact Host.Outcome.next.inj hturn ▸ legal_runHostLine (legal_withScript h rest) hline
  · rw [hfault] at hturn
    cases hturn

/-! ### Engine turns -/

theorem wf_endCommand (pw : Bool) {s : State} (h : s.mem.wf = true) : (endCommand pw s).mem.wf = true := by
  cases pw with
  | false => exact h
  | true => exact wf_clear _ _ h

theorem wf_bodyEnd (i : Instr) {s : State} (h : s.mem.wf = true) : (bodyEnd i s).mem.wf = true := by
  have hclear : (clearOut s).mem.wf = true := wf_clear _ _ h
  cases i with
  | verify => exact hclear
  | encrypt | decrypt | varint | deriveKey | frame | unframe => exact wf_store _ _ hclear

/-- An OUT that holds a result is zero after it (R34). -/
theorem MemoryLegal.of_outHolds {t : State} {bs : List Byte} (hout : OutHolds t bs) (hwf : t.mem.wf = true)
    (hmapped : ∀ a, t.mem.read a ≠ 0 → ∃ b, inBuffer t.params b a = true) : MemoryLegal t.params t.mem t.outLen.toNat := by
  obtain ⟨hcount, hcap, hbytes⟩ := hout
  refine ⟨hwf, hmapped, hcount ▸ hcap, fun a hlow hhigh => ?_⟩
  have hzero := hbytes (a - outBase) (by omega)
  rwa [Nat.add_sub_cancel' (by omega), List.getD_eq_default _ _ (by omega)] at hzero

/-- An error completion is legal: OUT holds nothing, and its code is one of R150 (R158). -/
theorem legal_endCommand_raiseError {s : State} (h : Legal s) (pw : Bool) (e : CmdError) :
    Legal (endCommand pw (raiseError e (clearOut s))) := by
  have hkept := keptByEngine_endCommand_raiseError pw e s
  obtain ⟨hidle, -, herr, hvok, hcode, hout⟩ := failed_endCommand_raiseError pw e s
  refine legal_of_idle (hkept.params ▸ h.params) (.of_outHolds hout ?_ fun a ha => ?_) hidle ?_ (fun _ => ⟨?_, hvok⟩) ?_ hkept.dp
  · exact wf_endCommand pw (wf_clear _ _ (wf_clear _ _ h.canonical))
  · rw [read_endCommand_raiseError] at ha
    rw [hkept.params]
    split at ha
    · exact absurd rfl ha
    · split at ha
      · exact absurd rfl ha
      · exact h.memoryLegal.mapped a ha
  · rw [herr, hcode]
    cases e <;> rfl
  · rw [endCommand_outLen, raiseError_outLen]
  · rw [hcode]
    cases e <;> decide

/-- A completion without error is legal: OUT holds the result (R156). -/
theorem legal_completed {i : Instr} {s : State} (h : Legal s) (hfirst : firstError i s = none) : Legal (completed i s) := by
  have hkept := keptByEngine_completed h.params hfirst
  obtain ⟨hidle, -, herr, -, hcode⟩ := succeeded_completed i s
  refine legal_of_idle (hkept.params ▸ h.params) (.of_outHolds (outHolds_completed h.params hfirst) ?_ fun a ha => ?_) hidle
    ?_ (fun hon => ?_) ?_ hkept.dp
  · exact wf_endCommand _ (wf_bodyEnd i h.canonical)
  · rw [read_completed (length_resultOf_le h.params hfirst)] at ha
    rw [hkept.params]
    split at ha
    · exact absurd rfl ha
    · split at ha
      next hout => exact ⟨.out, (inBuffer_iff _ _ _).2 hout⟩
      · exact h.memoryLegal.mapped a ha
  · rw [herr, hcode]
    rfl
  · rw [herr] at hon
    cases hon
  · rw [hcode]
    decide

theorem legal_engineTurn {s t : State} (h : Legal s) (hturn : engineTurn s = .next t) : Legal t := by
  cases hbusy : s.status.busy with
  | false =>
    rw [engineTurn_of_idle hbusy] at hturn
    exact Host.Outcome.next.inj hturn ▸ h
  | true =>
    cases hdec : decode s.cmd with
    | error e =>
      rw [engineTurn_of_decode_error hbusy ⟨e, hdec⟩] at hturn
      exact Host.Outcome.next.inj hturn ▸ legal_endCommand_raiseError h _ _
    | ok i =>
      rw [engineTurn_of_decode_ok hbusy hdec] at hturn
      cases hfirst : firstError i s with
      | none =>
        rw [exec_of_firstError_none h.params hfirst] at hturn
        exact Host.Outcome.next.inj hturn ▸ legal_completed h hfirst
      | some e =>
        rw [exec_of_firstError_some h.params hfirst] at hturn
        exact Host.Outcome.next.inj hturn ▸ legal_endCommand_raiseError h _ _

/-! ### Steps -/

theorem legal_takeTurn {s : State} (h : Legal s) : Legal (takeTurn s) := h.of_same rfl rfl rfl rfl id rfl rfl rfl rfl

theorem legal_platformReset {s : State} (h : Legal s) : Legal (platformReset s) :=
  have hcode : (platformReset s).errCode ≤ 5 := by
    rw [platformReset_errCode]
    decide
  legal_of_idle h.params ⟨wf_nil, fun _ ha => absurd rfl ha, Nat.zero_le _, fun _ _ _ => rfl⟩ rfl rfl nofun hcode rfl

/-- Settles O9: each kind of turn keeps a legal state legal, and so does taking the turn off the schedule. -/
theorem stepKeepsLegal : Obligations.StepKeepsLegal := by
  intro s t h hstep
  have htake := legal_takeTurn h
  obtain ⟨-, hturn⟩ | ⟨-, hturn⟩ | ⟨-, hturn⟩ := step_cases s
  · exact legal_hostTurn htake (hturn ▸ hstep)
  · exact legal_engineTurn htake (hturn ▸ hstep)
  · rw [hturn] at hstep
    exact Host.Outcome.next.inj hstep ▸ legal_platformReset htake

end Sys2Proof.Machine
end

section
/-! PROOFS. Noninterference: no step but a password command's shows a byte of PWD (20_memory.md R57, R73, R166). -/

namespace Sys2Proof.Machine

open Sys2Proof.Claims

/-! ### Operations that keep two states alike -/

/-- The operation neither reads nor writes the byte store, and keeps the sizes. -/
structure IgnoresMemory (f : State → State) : Prop where
  withMem : ∀ s m, f { s with mem := m } = { f s with mem := m }
  mem : ∀ s, (f s).mem = s.mem
  params : ∀ s, (f s).params = s.params

theorem agreeExceptPassword_refl (s : State) : AgreeExceptPassword s s := ⟨rfl, fun _ _ => rfl⟩

theorem params_of_agree {s s' : State} (h : AgreeExceptPassword s s') : s'.params = s.params := by rw [h.1]

theorem status_of_agree {s s' : State} (h : AgreeExceptPassword s s') : s'.status = s.status := by rw [h.1]

theorem cmd_of_agree {s s' : State} (h : AgreeExceptPassword s s') : s'.cmd = s.cmd := by rw [h.1]

theorem inLen_of_agree {s s' : State} (h : AgreeExceptPassword s s') : s'.inLen = s.inLen := by rw [h.1]

theorem script_of_agree {s s' : State} (h : AgreeExceptPassword s s') : s'.script = s.script := by rw [h.1]

theorem agree_map {s s' : State} {f : State → State} (h : AgreeExceptPassword s s') (hf : IgnoresMemory f) :
    AgreeExceptPassword (f s) (f s') := by
  obtain ⟨hs, hread⟩ := h
  refine ⟨?_, fun a ha => ?_⟩
  · rw [hf.mem s', ← hf.withMem, ← hs]
  · rw [hf.params] at ha
    rw [hf.mem, hf.mem, hread a ha]

/-- The same bytes stored keep two states alike. -/
theorem agree_store {s s' : State} (h : AgreeExceptPassword s s') (off : Nat) (bs : List Byte) :
    AgreeExceptPassword { s with mem := s.mem.store off bs } { s' with mem := s'.mem.store off bs } := by
  obtain ⟨hs, hread⟩ := h
  refine ⟨?_, fun a ha => ?_⟩
  · rw [hs]
  · rw [read_store, read_store, hread a ha]

/-- The same range cleared keeps two states alike. -/
theorem agree_clearOut {s s' : State} (h : AgreeExceptPassword s s') :
    AgreeExceptPassword (clearOut s) (clearOut s') := by
  have hparams := params_of_agree h
  obtain ⟨hs, hread⟩ := h
  refine ⟨?_, fun a ha => ?_⟩
  · rw [hs]
    rfl
  · rw [read_clearOut, read_clearOut, hparams, hread a ha]

theorem ignoresMemory_takeTurn : IgnoresMemory takeTurn := ⟨fun _ _ => rfl, fun _ => rfl, fun _ => rfl⟩

theorem ignoresMemory_withScript (script : List HostLine) : IgnoresMemory fun s => { s with script := script } :=
  ⟨fun _ _ => rfl, fun _ => rfl, fun _ => rfl⟩

theorem ignoresMemory_respond (x : Response) : IgnoresMemory (respond x) := ⟨fun _ _ => rfl, fun _ => rfl, fun _ => rfl⟩

theorem ignoresMemory_completeOk : IgnoresMemory completeOk := ⟨fun _ _ => rfl, fun _ => rfl, fun _ => rfl⟩

theorem ignoresMemory_endCommand_false : IgnoresMemory (endCommand false) := ⟨fun _ _ => rfl, fun _ => rfl, fun _ => rfl⟩

theorem ignoresMemory_afterRead (r : Region) : IgnoresMemory (afterRead r) := by
  refine ⟨fun s m => ?_, fun s => ?_, fun s => ?_⟩
  · have hsame : readsFree r { s with mem := m } = readsFree r s := rfl
    rw [afterRead, afterRead, hsame]
    cases readsFree r s <;> rfl
  · obtain hsame | ⟨-, hdraw⟩ := afterRead_cases r s
    · rw [hsame]
    · rw [hdraw, drawBusyValue_mem]
  · obtain hsame | ⟨-, hdraw⟩ := afterRead_cases r s
    · rw [hsame]
    · rw [hdraw, drawBusyValue_params]

theorem ignoresMemory_unlessBusy {f : State → State} (hf : IgnoresMemory f) : IgnoresMemory (unlessBusy f) := by
  refine ⟨fun s m => ?_, fun s => ?_, fun s => ?_⟩
  · cases hbusy : s.status.busy with
    | false => rw [unlessBusy_idle hbusy, unlessBusy_idle (s := { s with mem := m }) hbusy, hf.withMem]
    | true =>
      rw [unlessBusy_busy hbusy, unlessBusy_busy (s := { s with mem := m }) hbusy]
      rfl
  · obtain ⟨-, hwrite⟩ | ⟨-, hwrite⟩ := unlessBusy_cases f s
    · rw [hwrite, hf.mem]
    · rw [hwrite, hazard_mem]
  · obtain ⟨-, hwrite⟩ | ⟨-, hwrite⟩ := unlessBusy_cases f s
    · rw [hwrite, hf.params]
    · rw [hwrite, hazard_params]

theorem ignoresMemory_writeReg (r : Reg) (v : Word) : IgnoresMemory (writeReg r v) := by
  cases r with
  | ctrl | status | errCode | outLen => exact ⟨fun _ _ => rfl, fun _ => rfl, fun _ => rfl⟩
  | cmd | pwdLen | inLen | indexLo | indexHi =>
    exact ignoresMemory_unlessBusy ⟨fun _ _ => rfl, fun _ => rfl, fun _ => rfl⟩

/-! ### What the host reads -/

/-- No byte of IN or OUT is a byte of PWD (R51). -/
theorem read_eq_of_agree {s s' : State} (h : AgreeExceptPassword s s') (hp : s.params.wf = true) {b : Buffer}
    (hb : b ≠ .pwd) {x : Nat} (hx : inBuffer s.params b x = true) : s'.mem.read x = s.mem.read x := by
  refine h.2 x fun hpwd => hb ?_
  have hsome := (regionAt_buf_iff hp b x).2 hx
  rw [(regionAt_buf_iff hp .pwd x).2 ((inBuffer_iff s.params .pwd x).2 hpwd)] at hsome
  cases hsome
  rfl

/-- A read of a byte does not depend on PWD, which reads 0x00 (R57). -/
theorem readBuf8_eq_of_agree {s s' : State} (h : AgreeExceptPassword s s') (hp : s.params.wf = true) {b : Buffer}
    {off : Nat} (hcheck : check8 s.params off = .ok b) : readBuf8 b off s' = readBuf8 b off s := by
  have hin := (check8_ok_iff hp off b).1 hcheck
  have hbyte (hb : b ≠ .pwd) : s'.mem.read off = s.mem.read off := read_eq_of_agree h hp hb hin
  rw [h.1] at hbyte ⊢
  cases b with
  | pwd => rfl
  | inp => exact hbyte (by decide)
  | out =>
    simp only [readBuf8, hbyte (by decide)]
    rfl

/-- A read of a word does not depend on PWD either. -/
theorem readRegion_eq_of_agree {s s' : State} (h : AgreeExceptPassword s s') (hp : s.params.wf = true) {r : Region}
    {off : Nat} (hcheck : check32 s.params off = .ok r) : readRegion r off s' = readRegion r off s := by
  cases r with
  | reg r =>
    rw [h.1]
    cases r <;> rfl
  | buf b =>
    obtain ⟨-, hfirst, hlast⟩ := (check32_buf_iff hp off b).1 hcheck
    have hbytes (hb : b ≠ .pwd) : s'.mem.readBytes off 4 = s.mem.readBytes off 4 := by
      refine readBytes_congr fun x hlow hhigh => read_eq_of_agree h hp hb ?_
      rw [inBuffer_iff] at hfirst hlast ⊢
      omega
    rw [h.1] at hbytes ⊢
    cases b with
    | pwd => rfl
    | inp => exact congrArg wordOfLe (hbytes (by decide))
    | out =>
      simp only [readRegion, readBuf32, hbytes (by decide)]
      rfl

/-! ### Host turns -/

/-- The two lines fail alike, or give states that differ only in PWD. -/
def SameLineExceptPassword (o o' : Except Fault State) : Prop :=
  match o, o' with
  | .ok t, .ok t' => AgreeExceptPassword t t'
  | .error f, .error f' => f = f'
  | _, _ => False

theorem sameLine_read {s s' : State} {o o' : Except Fault State} (h : AgreeExceptPassword s s') (r : Region) (x : Response)
    (ho : o = .ok (respond x (afterRead r s))) (ho' : o' = .ok (respond x (afterRead r s'))) : SameLineExceptPassword o o' := by
  rw [ho, ho']
  exact agree_map (agree_map h (ignoresMemory_afterRead r)) (ignoresMemory_respond x)

/-- A buffer write does the same to both states, whichever buffer and whichever phase. -/
theorem sameLine_writeBuf {s s' : State} (h : AgreeExceptPassword s s') (b : Buffer) (off : Nat) (bs : List Byte) :
    SameLineExceptPassword ((writeBuf b off bs s).map (respond .written)) ((writeBuf b off bs s').map (respond .written)) := by
  by_cases hb : b = .out
  · subst hb
    rfl
  · have hstatus := status_of_agree h
    rw [writeBuf_eq hb, writeBuf_eq hb, Except.map, Except.map]
    refine agree_map ?_ (ignoresMemory_respond _)
    cases hbusy : s.status.busy with
    | false =>
      rw [unlessBusy_idle hbusy, unlessBusy_idle (hstatus ▸ hbusy)]
      exact agree_store h off bs
    | true =>
      rw [unlessBusy_busy hbusy, unlessBusy_busy (hstatus ▸ hbusy)]
      exact agree_map h ⟨fun _ _ => rfl, fun _ => rfl, fun _ => rfl⟩

theorem sameLine_hostAccess {s s' : State} (h : AgreeExceptPassword s s') (hp : s.params.wf = true) (a : Access) :
    SameLineExceptPassword (hostAccess a s) (hostAccess a s') := by
  have hparams := params_of_agree h
  cases a with
  | read8 off =>
    simp only [hostAccess, memRead8, hparams]
    cases hcheck : check8 s.params off with
    | error f => rfl
    | ok b => exact sameLine_read h (.buf b) (.byte (readBuf8 b off s)) rfl (by rw [← readBuf8_eq_of_agree h hp hcheck]; rfl)
  | read32 off =>
    simp only [hostAccess, memRead32, hparams]
    cases hcheck : check32 s.params off with
    | error f => rfl
    | ok r => exact sameLine_read h r (.word (readRegion r off s)) rfl (by rw [← readRegion_eq_of_agree h hp hcheck]; rfl)
  | write8 off v =>
    simp only [hostAccess, memWrite8, hparams]
    cases check8 s.params off with
    | error f => rfl
    | ok b => exact sameLine_writeBuf h b off [v]
  | write32 off v =>
    simp only [hostAccess, memWrite32, hparams]
    cases check32 s.params off with
    | error f => rfl
    | ok r =>
      cases r with
      | reg r => exact agree_map (agree_map h (ignoresMemory_writeReg r v)) (ignoresMemory_respond _)
      | buf b => exact sameLine_writeBuf h b off (le32 v)

theorem sameLine_runHostLine {s s' : State} (h : AgreeExceptPassword s s') (hp : s.params.wf = true) (l : HostLine) :
    SameLineExceptPassword (runHostLine l s) (runHostLine l s') := by
  have hstatus : statusWord s'.status = statusWord s.status := by rw [status_of_agree h]
  have hscript := script_of_agree h
  cases l with
  | access a => exact sameLine_hostAccess h hp a
  | wait =>
    rw [runHostLine_wait, runHostLine_wait, hstatus, hscript]
    refine agree_map ?_ (ignoresMemory_respond _)
    split
    · exact h
    · exact agree_map h (ignoresMemory_withScript _)
  | result =>
    have hafter := agree_map h (ignoresMemory_afterRead (.reg .outLen))
    have hrest : (afterRead (.reg .outLen) s').script = (afterRead (.reg .outLen) s).script :=
      script_of_agree hafter
    have hword : readReg .outLen s' = readReg .outLen s := by rw [h.1]; rfl
    rw [runHostLine_result, runHostLine_result, hrest, hword]
    exact agree_map (agree_map hafter (ignoresMemory_withScript _)) (ignoresMemory_respond _)

theorem sameOutcome_hostTurn {s s' : State} (h : AgreeExceptPassword s s') (hp : s.params.wf = true) :
    SameOutcomeExceptPassword (hostTurn s) (hostTurn s') := by
  have hscript := script_of_agree h
  cases hlines : s.script with
  | nil =>
    rw [hostTurn_of_nil hlines, hostTurn_of_nil (hscript.trans hlines)]
    exact h
  | cons l rest =>
    have hline := sameLine_runHostLine (agree_map h (ignoresMemory_withScript rest)) hp l
    simp only [hostTurn, hscript, hlines]
    revert hline
    cases runHostLine l { s with script := rest } <;> cases runHostLine l { s' with script := rest } <;> exact id

/-! ### Engine turns -/

/-- The input operand starts above PWD, so it does not depend on it. -/
theorem inputBytes_eq_of_agree {s s' : State} (h : AgreeExceptPassword s s') (hp : s.params.wf = true) :
    inputBytes s' = inputBytes s := by
  have hbounds := params_bounds hp
  have hlen := inLen_of_agree h
  rw [inputBytes, inputBytes, hlen]
  refine readBytes_congr fun x hlow _ => h.2 x ?_
  rw [inBase_eq] at hlow
  rw [pwdBase_eq]
  omega

/-- A command that does not use the password finds the same first error. -/
theorem firstError_eq_of_agree {s s' : State} (h : AgreeExceptPassword s s') (hp : s.params.wf = true) {i : Instr}
    (huse : usesPassword i = false) : firstError i s' = firstError i s := by
  have hinput := inputBytes_eq_of_agree h hp
  have hlen := inLen_of_agree h
  have hparams := params_of_agree h
  cases i with
  | encrypt | decrypt | deriveKey => cases huse
  | varint => rfl
  | verify | frame | unframe => simp only [firstError, hinput, hlen, hparams]

/-- A command that does not use the password returns the same. -/
theorem resultOf_eq_of_agree {s s' : State} (h : AgreeExceptPassword s s') (hp : s.params.wf = true) {i : Instr}
    (huse : usesPassword i = false) : resultOf i s' = resultOf i s := by
  have hinput := inputBytes_eq_of_agree h hp
  have hlo : s'.indexLo = s.indexLo := by rw [h.1]
  have hhi : s'.indexHi = s.indexHi := by rw [h.1]
  cases i with
  | encrypt | decrypt | deriveKey => cases huse
  | verify => rfl
  | varint => rw [resultOf, resultOf, hlo, hhi]
  | frame | unframe => rw [resultOf, resultOf, hinput]

theorem agree_writeResult {s s' : State} (h : AgreeExceptPassword s s') (bs : List Byte) :
    AgreeExceptPassword (writeResult bs s) (writeResult bs s') :=
  agree_map (agree_store h outBase bs)
    (f := fun u => { u with outLen := BitVec.ofNat 32 bs.length, status := { u.status with vok := false } })
    ⟨fun _ _ => rfl, fun _ => rfl, fun _ => rfl⟩

theorem agree_bodyEnd {s s' : State} (h : AgreeExceptPassword s s') (hp : s.params.wf = true) {i : Instr}
    (huse : usesPassword i = false) : AgreeExceptPassword (bodyEnd i s) (bodyEnd i s') := by
  have hresult := resultOf_eq_of_agree h hp huse
  cases i with
  | encrypt | decrypt | deriveKey => cases huse
  | verify =>
    have hvok : vokOf .verify s' = vokOf .verify s := by rw [vokOf, vokOf, inputBytes_eq_of_agree h hp]
    have hstatus := status_of_agree h
    rw [bodyEnd, bodyEnd, hvok, hstatus]
    exact agree_map (agree_clearOut h) (f := fun u => { u with outLen := 0, status := { s.status with vok := vokOf .verify s } })
      ⟨fun _ _ => rfl, fun _ => rfl, fun _ => rfl⟩
  | varint | frame | unframe =>
    rw [bodyEnd, bodyEnd, hresult]
    exact agree_writeResult (agree_clearOut h) _

/-- An error completion without password does the same to both states. -/
theorem agree_endCommand_raiseError {s s' : State} (h : AgreeExceptPassword s s') (e : CmdError) :
    AgreeExceptPassword (endCommand false (raiseError e (clearOut s)))
      (endCommand false (raiseError e (clearOut s'))) := by
  refine agree_map ?_ ignoresMemory_endCommand_false
  exact agree_map (agree_clearOut (agree_clearOut h))
    (f := fun u => { u with outLen := 0, status := statusAtError u.status, errCode := errorCode e })
    ⟨fun _ _ => rfl, fun _ => rfl, fun _ => rfl⟩

/-- A command that does not use the password does the same to both states. -/
theorem sameOutcome_exec {s s' : State} (h : AgreeExceptPassword s s') (hp : s.params.wf = true) {i : Instr}
    (huse : usesPassword i = false) : SameOutcomeExceptPassword (exec i s) (exec i s') := by
  have hp' : s'.params.wf = true := params_of_agree h ▸ hp
  have hfirst' := firstError_eq_of_agree h hp huse
  have hzero : zeroizesPassword i = false := usesPassword_eq i ▸ huse
  cases hfirst : firstError i s with
  | none =>
    rw [exec_of_firstError_none hp hfirst, exec_of_firstError_none hp' (hfirst'.trans hfirst), completed, completed, hzero]
    exact agree_map (agree_map (agree_bodyEnd h hp huse) ignoresMemory_completeOk) ignoresMemory_endCommand_false
  | some e =>
    rw [exec_of_firstError_some hp hfirst, exec_of_firstError_some hp' (hfirst'.trans hfirst), hzero]
    exact agree_endCommand_raiseError h e

theorem sameOutcome_engineTurn {s s' : State} (h : AgreeExceptPassword s s') (hp : s.params.wf = true)
    (huse : s.status.busy = true → ∀ i, decode s.cmd = .ok i → usesPassword i = false) :
    SameOutcomeExceptPassword (engineTurn s) (engineTurn s') := by
  have hstatus := status_of_agree h
  have hcmd := cmd_of_agree h
  cases hbusy : s.status.busy with
  | false =>
    rw [engineTurn_of_idle hbusy, engineTurn_of_idle (hstatus ▸ hbusy)]
    exact h
  | true =>
    cases hdec : decode s.cmd with
    | ok i =>
      rw [engineTurn_of_decode_ok hbusy hdec, engineTurn_of_decode_ok (hstatus ▸ hbusy) (hcmd ▸ hdec)]
      exact sameOutcome_exec h hp (huse hbusy i hdec)
    | error e =>
      rw [engineTurn_of_decode_error hbusy ⟨e, hdec⟩, engineTurn_of_decode_error (hstatus ▸ hbusy) ⟨e, hcmd ▸ hdec⟩]
      exact agree_endCommand_raiseError h _

/-! ### Steps -/

/-- The platform's reset clears PWD with the rest, so both states end alike (R180). -/
theorem agree_platformReset {s s' : State} (h : AgreeExceptPassword s s') :
    AgreeExceptPassword (platformReset s) (platformReset s') := by
  have hsame : platformReset s' = platformReset s := by rw [h.1]; rfl
  rw [hsame]
  exact agreeExceptPassword_refl _

/-- Settles O57: the same agent moves in both states; the host reads PWD as zero, the commands allowed do not read it, and a reset clears
it. -/
theorem passwordBytesStaySecret : Obligations.PasswordBytesStaySecret := by
  intro s s' hp h huse
  have hmoves : whoMoves s' = whoMoves s := by rw [h.1]; rfl
  have htake := agree_map h ignoresMemory_takeTurn
  cases hturn : whoMoves s with
  | host =>
    rw [step_of_host hturn, step_of_host (hmoves.trans hturn)]
    exact sameOutcome_hostTurn htake hp
  | engine =>
    rw [step_of_engine hturn, step_of_engine (hmoves.trans hturn)]
    exact sameOutcome_engineTurn htake hp (huse hturn)
  | reset =>
    rw [step_of_reset hturn, step_of_reset (hmoves.trans hturn)]
    exact agree_platformReset htake

end Sys2Proof.Machine
end
